-- ==== Sys2Proof/Config.lean ====
section
/-! DEFINITION. The implementation parameters of 00_scope.md R6. The widths of the ports stand as numerals in
Machine/State.lean, as R23's port table has them; Laws/State.lean ties them to these names. There is no free
value: every input of the BFU has exactly one output (00_scope.md R13; 93_implementation_defined.md, Part 1). -/

namespace Sys2Proof

/-- `DW`: the width of the data ports `A`, `B`, `Y` (00_scope.md R6). -/
def Config.dataWidth : Nat := 64

/-- `CW`: the width of the command word (00_scope.md R6). -/
def Config.commandWidth : Nat := 32

/-- `GW`: the width of the grid port `G` (00_scope.md R6). -/
def Config.gridWidth : Nat := 16

/-- The largest value of a numeric parameter field: `PW = 8` bits, unsigned, range 0 to 255 (00_scope.md R6). -/
def Config.maxParam : Nat := 255

end Sys2Proof
end

