-- ==== Sys2Proof/Word.lean ====
section
/-! DEFINITION. The value types of the BFU (10_state.md R25, R26): the Word of a fixed width, and the Bool grids. -/

namespace Sys2Proof

/-- A Word of width `w`: "an unsigned integer of fixed bit-width W", a natural below `2^w` whose bit 0 is the
least significant (00_scope.md R7, R8; 10_state.md R25). -/
abbrev Word (w : Nat) := BitVec w

/-- A sub-vector of a Bool grid: four booleans, slot 0 first (10_state.md R26). -/
structure SubVector where
  slot0 : Bool
  slot1 : Bool
  slot2 : Bool
  slot3 : Bool
deriving DecidableEq, Repr

/-- A Grid8: sub-vectors 0 and 1, one boolean per bit of a byte (10_state.md R26). -/
structure Grid8 where
  v0 : SubVector
  v1 : SubVector
deriving DecidableEq, Repr

/-- A Grid16: sub-vectors 0 to 3, one boolean per bit of a 16-bit word (10_state.md R26). -/
structure Grid16 where
  v0 : SubVector
  v1 : SubVector
  v2 : SubVector
  v3 : SubVector
deriving DecidableEq, Repr

end Sys2Proof
end

