-- ==== Sys2Proof/Syntax.lean ====
section
/-! DEFINITION. The operations of the BFU as data (30_encoding.md R45 to R57), the reasons a command word is
reserved (60_exceptions.md R109), and the lines of a listing (30_encoding.md R59). -/

namespace Sys2Proof

/-- The four word widths (00_scope.md R5): "No other width exists". -/
inductive Width where
  | w8
  | w16
  | w32
  | w64
deriving DecidableEq, Repr

/-- One constructor per row of spec/opcode_table.json. The numeric parameters are naturals of any size, as in
the operation rules (00_scope.md R6, R12); which of them the command word can spell is WellFormed's question.
The data operands are on the ports `A` and `B` (30_encoding.md R44). -/
inductive Instr where
  /-- MASK (40_mask.md R62). -/
  | mask (w : Width) (len : Nat)
  /-- GET (41_extract.md R68). -/
  | get (w : Width) (len off : Nat)
  /-- SET (42_insert.md R75). -/
  | set (w : Width) (len off : Nat)
  /-- SWAP (43_swap.md R86). -/
  | swap (w : Width) (i j n : Nat)
  /-- GRID8 (44_decompose.md R99). -/
  | grid8
  /-- GRID16 (44_decompose.md R101). -/
  | grid16
  /-- GET0, the short form of GET with `off = 0` (41_extract.md R69). -/
  | get0 (w : Width) (len : Nat)
  /-- SET0, the short form of SET with `off = 0` (42_insert.md R76). -/
  | set0 (w : Width) (len : Nat)
  /-- SWAP1, the short form of SWAP with `n = 1` (43_swap.md R87). -/
  | swap1 (w : Width) (i j : Nat)
deriving DecidableEq, Repr

/-- The causes of a reserved command word that a decoder can tell apart (60_exceptions.md R109). -/
inductive Reserved where
  /-- `RSV != 0`. -/
  | rsvNotZero
  /-- `OP` is 5, 6 or 7. -/
  | operationCode
  /-- `OP = 4` with `WSEL` 2 or 3: there is no 32-bit or 64-bit decomposer. -/
  | gridWidth
  /-- A must-be-zero parameter field of the operation is not zero. -/
  | paramNotZero
deriving DecidableEq, Repr

/-- What a command word decodes to (30_encoding.md R51): one operation, or reserved. -/
inductive Decoded where
  | op (i : Instr)
  | reserved (r : Reserved)
deriving DecidableEq, Repr

/-- An operand of a listing line: "Word literals or names" (30_encoding.md R56). A name is a number
(log entry 8). -/
inductive Operand where
  | lit (v : BitVec 64)
  | name (x : Nat)
deriving DecidableEq, Repr

/-- A line `name = operation` of a listing (30_encoding.md R59): the name it binds, the operation, and the
operands for the ports `A` and `B` where the operation has them. -/
structure Line where
  dest : Nat
  instr : Instr
  opA : Option Operand
  opB : Option Operand
deriving DecidableEq, Repr

end Sys2Proof
end

