-- ==== Sys2Proof/WellFormed.lean ====
section
/-! DEFINITION. Which operations a command word can spell (30_encoding.md R48, R56) and which lines a listing may
hold (R56, R59). -/

namespace Sys2Proof

/-- A numeric parameter fits its 8-bit field: "literals 0 to 255" (30_encoding.md R48, R56). -/
def paramFits (p : Nat) : Bool := p ≤ Config.maxParam

/-- Every numeric parameter of the operation fits its field (30_encoding.md R46, R56). -/
def Instr.wellFormed : Instr → Bool
  | .mask _ len => paramFits len
  | .get _ len off => paramFits len && paramFits off
  | .set _ len off => paramFits len && paramFits off
  | .swap _ i j n => paramFits i && paramFits j && paramFits n
  | .grid8 => true
  | .grid16 => true
  | .get0 _ len => paramFits len
  | .set0 _ len => paramFits len
  | .swap1 _ i j => paramFits i && paramFits j

/-- The operation reads port `A` (10_state.md R23: every operation but MASK). -/
def Instr.usesA : Instr → Bool
  | .mask _ _ => false
  | .get _ _ _ => true
  | .set _ _ _ => true
  | .swap _ _ _ _ => true
  | .grid8 => true
  | .grid16 => true
  | .get0 _ _ => true
  | .set0 _ _ => true
  | .swap1 _ _ _ => true

/-- The operation reads port `B` (10_state.md R23: SET alone, in both its forms). -/
def Instr.usesB : Instr → Bool
  | .mask _ _ => false
  | .get _ _ _ => false
  | .set _ _ _ => true
  | .swap _ _ _ _ => false
  | .grid8 => false
  | .grid16 => false
  | .get0 _ _ => false
  | .set0 _ _ => true
  | .swap1 _ _ _ => false

/-- A line is spelt as 30_encoding.md R56, R57 spell it: literals that fit, and an operand for exactly the ports
the operation reads. -/
def Line.wellFormed (l : Line) : Bool :=
  l.instr.wellFormed && (l.opA.isSome == l.instr.usesA) && (l.opB.isSome == l.instr.usesB)

end Sys2Proof
end

