-- ==== Sys2Proof/Decode.lean ====
section
/-! DEFINITION. The command word (30_encoding.md): its fields, the decoder (R51), the encoder (R56 to R58), and the
opcode map as match and mask (R55). -/

namespace Sys2Proof

/-- The code of a width in the field `WSEL` (30_encoding.md R47). -/
def Width.wsel : Width → Nat
  | .w8 => 0
  | .w16 => 1
  | .w32 => 2
  | .w64 => 3

/-- The width a `WSEL` value selects (30_encoding.md R47). -/
def Width.ofWsel : Nat → Width
  | 0 => .w8
  | 1 => .w16
  | 2 => .w32
  | _ => .w64

/-- `W = 8 * 2^WSEL` (30_encoding.md R47). -/
def Width.bits (w : Width) : Nat := 8 * 2 ^ w.wsel

/-- The slice `c[hi:lo]` as an unsigned number (00_scope.md R7). -/
def slice (c : BitVec 32) (hi lo : Nat) : Nat := c.toNat / 2 ^ lo % 2 ^ (hi - lo + 1)

/-- `OP = CMD[2:0]` (30_encoding.md R44). -/
def fieldOp (c : BitVec 32) : Nat := slice c 2 0

/-- `WSEL = CMD[4:3]` (30_encoding.md R44). -/
def fieldWsel (c : BitVec 32) : Nat := slice c 4 3

/-- `RSV = CMD[7:5]` (30_encoding.md R44). -/
def fieldRsv (c : BitVec 32) : Nat := slice c 7 5

/-- `P0 = CMD[15:8]` (30_encoding.md R44). -/
def fieldP0 (c : BitVec 32) : Nat := slice c 15 8

/-- `P1 = CMD[23:16]` (30_encoding.md R44). -/
def fieldP1 (c : BitVec 32) : Nat := slice c 23 16

/-- `P2 = CMD[31:24]` (30_encoding.md R44). -/
def fieldP2 (c : BitVec 32) : Nat := slice c 31 24

/-- The width the command word selects (30_encoding.md R47). -/
def fieldWidth (c : BitVec 32) : Width := Width.ofWsel (fieldWsel c)

/-- The name of the cause when `RSV = 0` and no arm of the decoder applies (60_exceptions.md R109). The ports
cannot show it (R113). -/
def reservedCause (c : BitVec 32) : Reserved :=
  if 5 ≤ fieldOp c then .operationCode
  else if fieldOp c = 4 ∧ 2 ≤ fieldWsel c then .gridWidth
  else .paramNotZero

/-- Decoding, total: the seven arms of 30_encoding.md R51 in its order. -/
def decode (c : BitVec 32) : Decoded :=
  if fieldRsv c ≠ 0 then .reserved .rsvNotZero
  else if fieldOp c = 0 ∧ fieldP1 c = 0 ∧ fieldP2 c = 0 then .op (.mask (fieldWidth c) (fieldP0 c))
  else if fieldOp c = 1 ∧ fieldP2 c = 0 then .op (.get (fieldWidth c) (fieldP0 c) (fieldP1 c))
  else if fieldOp c = 2 ∧ fieldP2 c = 0 then .op (.set (fieldWidth c) (fieldP0 c) (fieldP1 c))
  else if fieldOp c = 3 then .op (.swap (fieldWidth c) (fieldP0 c) (fieldP1 c) (fieldP2 c))
  else if fieldOp c = 4 ∧ fieldWsel c = 0 ∧ fieldP0 c = 0 ∧ fieldP1 c = 0 ∧ fieldP2 c = 0 then .op .grid8
  else if fieldOp c = 4 ∧ fieldWsel c = 1 ∧ fieldP0 c = 0 ∧ fieldP1 c = 0 ∧ fieldP2 c = 0 then .op .grid16
  else .reserved (reservedCause c)

/-- `enc(op, W, p0, p1, p2)` (30_encoding.md R56; the number of R44 with `RSV = 0`). -/
def enc (op : Nat) (w : Width) (p0 p1 p2 : Nat) : BitVec 32 :=
  BitVec.ofNat 32 (op + 8 * w.wsel + 256 * p0 + 65536 * p1 + 16777216 * p2)

/-- A numeric argument as the command word presents it: `min(p, 255)` (30_encoding.md R48, R58). -/
def presented (p : Nat) : Nat := min p Config.maxParam

/-- The command word of an operation (30_encoding.md R56, R58); a short form has the word of the full operation
with the default filled in (R57). On a well-formed operation no parameter is changed by `presented`. -/
def encode : Instr → BitVec 32
  | .mask w len => enc 0 w (presented len) 0 0
  | .get w len off => enc 1 w (presented len) (presented off) 0
  | .set w len off => enc 2 w (presented len) (presented off) 0
  | .swap w i j n => enc 3 w (presented i) (presented j) (presented n)
  | .grid8 => enc 4 .w8 0 0 0
  | .grid16 => enc 4 .w16 0 0 0
  | .get0 w len => enc 1 w (presented len) 0 0
  | .set0 w len => enc 2 w (presented len) 0 0
  | .swap1 w i j => enc 3 w (presented i) (presented j) 1

/-- A short form with its default filled in; every other operation as it is (30_encoding.md R57). -/
def Instr.expand : Instr → Instr
  | .mask w len => .mask w len
  | .get w len off => .get w len off
  | .set w len off => .set w len off
  | .swap w i j n => .swap w i j n
  | .grid8 => .grid8
  | .grid16 => .grid16
  | .get0 w len => .get w len 0
  | .set0 w len => .set w len 0
  | .swap1 w i j => .swap w i j 1

/-- The operation with every numeric parameter replaced by its value under `f`. -/
def Instr.mapParams (f : Nat → Nat) : Instr → Instr
  | .mask w len => .mask w (f len)
  | .get w len off => .get w (f len) (f off)
  | .set w len off => .set w (f len) (f off)
  | .swap w i j n => .swap w (f i) (f j) (f n)
  | .grid8 => .grid8
  | .grid16 => .grid16
  | .get0 w len => .get0 w (f len)
  | .set0 w len => .set0 w (f len)
  | .swap1 w i j => .swap1 w (f i) (f j)

/-- The width `W` the operation works at (20_memory.md R36). -/
def Instr.width : Instr → Width
  | .mask w _ => w
  | .get w _ _ => w
  | .set w _ _ => w
  | .swap w _ _ _ => w
  | .grid8 => .w8
  | .grid16 => .w16
  | .get0 w _ => w
  | .set0 w _ => w
  | .swap1 w _ _ => w

/-- The operation's result is a Bool grid on `G`, not a Word on `Y` (30_encoding.md R46). -/
def Instr.yieldsGrid : Instr → Bool
  | .mask _ _ => false
  | .get _ _ _ => false
  | .set _ _ _ => false
  | .swap _ _ _ _ => false
  | .grid8 => true
  | .grid16 => true
  | .get0 _ _ => false
  | .set0 _ _ => false
  | .swap1 _ _ _ => false

/-- The mnemonic of spec/opcode_table.json (30_encoding.md R55). -/
def Instr.mnemonic : Instr → String
  | .mask _ _ => "MASK"
  | .get _ _ _ => "GET"
  | .set _ _ _ => "SET"
  | .swap _ _ _ _ => "SWAP"
  | .grid8 => "GRID8"
  | .grid16 => "GRID16"
  | .get0 _ _ => "GET0"
  | .set0 _ _ => "SET0"
  | .swap1 _ _ _ => "SWAP1"

/-- A row of the opcode map: it selects `c` iff `c & mask = match` (30_encoding.md R55). -/
structure OpcodeRow where
  mnemonic : String
  pattern : BitVec 32
  mask : BitVec 32
deriving DecidableEq, Repr

/-- "a command word `c` selects a row iff `c & mask = match`" (30_encoding.md R55). -/
def OpcodeRow.selects (r : OpcodeRow) (c : BitVec 32) : Bool := c &&& r.mask == r.pattern

/-- The first six rows of the opcode map: "a decoder uses only them" (30_encoding.md R55). -/
def coreRows : List OpcodeRow :=
  [⟨"MASK", 0x00000000#32, 0xFFFF00E7#32⟩,
   ⟨"GET", 0x00000001#32, 0xFF0000E7#32⟩,
   ⟨"SET", 0x00000002#32, 0xFF0000E7#32⟩,
   ⟨"SWAP", 0x00000003#32, 0x000000E7#32⟩,
   ⟨"GRID8", 0x00000004#32, 0xFFFFFFFF#32⟩,
   ⟨"GRID16", 0x0000000C#32, 0xFFFFFFFF#32⟩]

/-- The last three rows, the short forms: subsets of GET, SET and SWAP (30_encoding.md R55). -/
def shortRows : List OpcodeRow :=
  [⟨"GET0", 0x00000001#32, 0xFFFF00E7#32⟩,
   ⟨"SET0", 0x00000002#32, 0xFFFF00E7#32⟩,
   ⟨"SWAP1", 0x01000003#32, 0xFF0000E7#32⟩]

/-- The command word whose bits are the low `nbits` bits of `w`, every other bit 0. A command is the one 32-bit
value on `CMD` (30_encoding.md R44, R54), so no byte order enters (20_memory.md R33). -/
def tableWord (nbits w : Nat) : BitVec 32 := BitVec.ofNat 32 (w % 2 ^ nbits)

/-- The operation the decoder reads from a word of the opcode table, none where it is reserved. -/
def decodeTableWord (nbits w : Nat) : Option Instr :=
  match decode (tableWord nbits w) with
  | .op i => some i
  | .reserved _ => none

end Sys2Proof
end

