-- ==== Sys2Proof/Machine/State.lean ====
section
/-! DEFINITION. The machine's state. The BFU has none of its own (10_state.md R17): the fields are the six ports of
one transaction (00_scope.md R15, 10_state.md R23), held as data because the host's step is a function of a
state (log entry 1). -/

namespace Sys2Proof.Machine

/-- The ports of the BFU (10_state.md R23). The inputs hold what the caller presents; the outputs hold what the
block drove in the last transaction. There is no other field: no register, flag, memory or mode exists
(10_state.md R18 to R22, R24). -/
structure State where
  /-- `CMD[31:0]`, input: the command word. -/
  cmd : BitVec 32
  /-- `A[63:0]`, input: the word operated on. -/
  a : BitVec 64
  /-- `B[63:0]`, input: the value of SET. -/
  b : BitVec 64
  /-- `Y[63:0]`, output: the result Word, zero-extended. -/
  y : BitVec 64
  /-- `G[15:0]`, output: the result Bool grid. -/
  g : BitVec 16
  /-- `ILL`, output: 1 iff the command word is reserved. -/
  ill : BitVec 1
deriving DecidableEq, Repr

/-- Why a run stops with a fault. The block itself never faults (60_exceptions.md R106, R111). -/
inductive Fault where
  /-- Raised by the CALLER layer only (Machine/Caller.lean, a checked transaction), never by `exec` or `step`: the
  transaction asserted `ILL`. "A model should treat a reserved command as a *fault* of the caller"
  (30_encoding.md R52; 93_implementation_defined.md U6). Safe: the block's own outputs for that transaction are
  what `step` gives. -/
  | illAsserted (cmd : BitVec 32)
deriving DecidableEq, Repr

/-- Why the model gives an input no meaning. -/
inductive Refusal where
  /-- Raised by an arm of `exec` for an instruction without a meaning; no arm raises it now. Safe. -/
  | notModelled (mnemonic : String)
  /-- Raised by Machine/Listing.lean only: a listing line uses a name not yet bound, "it is refused, not given a
  default value" (30_encoding.md R59; 93_implementation_defined.md U7). Safe. -/
  | unboundName (x : Nat)
  /-- Raised by Machine/Listing.lean only: a listing line's operand is bound to a grid, and the BFU has no operation
  that takes one (44_decompose.md R103; log entry 7). Safe. -/
  | operandIsGrid (x : Nat)
  /-- Raised by Machine/Listing.lean only: the line is not spelt as 30_encoding.md R56, R57 spell it (a literal above
  255, a missing or surplus operand). Safe. -/
  | illFormedLine
deriving DecidableEq, Repr

/-- The ports before the first transaction. The BFU has no reset and no initial value (70_reset_and_hazards.md R120,
R121): the inputs are the caller's, here all 0, and the outputs are the function of those inputs, which is 0 on
each (`CMD = 0` is MASK at 8 bits with length 0). DESIGN CHOICE, unsafe: log entry 2. -/
def State.reset : State where
  cmd := 0#32
  a := 0#64
  b := 0#64
  y := 0#64
  g := 0#16
  ill := 0#1

end Sys2Proof.Machine
end

