-- ==== Sys2Proof/Machine/Operands.lean ====
section
/-! DEFINITION. The primitive functions on Words (00_scope.md R9 to R11), computed on naturals as the rules write
them, and the operand assembly at the ports (10_state.md R27). The rules' `&`, `|`, `^` are `&&&`, `|||`, `^^^`. -/

namespace Sys2Proof.Machine

/-- `trunc_W(a) = a mod 2^W` (00_scope.md R9). -/
def truncW (w : Nat) (a : Nat) : Word w := BitVec.ofNat w (a % 2 ^ w)

/-- `not_W(a) = (2^W - 1) - a` for a Word `a` (00_scope.md R9). -/
def notW {w : Nat} (a : Word w) : Word w := BitVec.ofNat w (2 ^ w - 1 - a.toNat)

/-- `shr_W(v, s) = floor(v / 2^s)`: logical, 0 for every `s >= W` (00_scope.md R10). -/
def shrW {w : Nat} (v : Word w) (s : Nat) : Word w := BitVec.ofNat w (v.toNat / 2 ^ s)

/-- `shl_W(v, s) = trunc_W(v * 2^s)`: bits shifted to position `W` or above are discarded, 0 for every `s >= W`
(00_scope.md R11). -/
def shlW {w : Nat} (v : Word w) (s : Nat) : Word w := truncW w (v.toNat * 2 ^ s)

/-- `zext_64` (00_scope.md R9): the result Word on the 64-bit port, `Y[63:W] = 0` (10_state.md R27). -/
def zext64 {w : Nat} (v : Word w) : BitVec 64 := BitVec.ofNat 64 v.toNat

/-- The operand Word on port `A` at width `w`: `A[w-1:0]`, the bits above ignored (10_state.md R27). -/
def State.wordA (s : State) (w : Nat) : Word w := truncW w s.a.toNat

/-- The operand Word on port `B` at width `w`: `B[w-1:0]`, the bits above ignored (10_state.md R27). -/
def State.wordB (s : State) (w : Nat) : Word w := truncW w s.b.toNat

end Sys2Proof.Machine
end

