-- ==== Sys2Proof/Machine/Flags.lean ====
section
/-! DEFINITION. The BFU stores no flag (10_state.md R20). Its one indication is the output `ILL`. -/

namespace Sys2Proof.Machine

/-- `ILL` of a transaction: 1 for a reserved command word, 0 for every defined one (10_state.md R20, R23;
30_encoding.md R52). -/
def illOf : Decoded → BitVec 1
  | .op _ => 0#1
  | .reserved _ => 1#1

end Sys2Proof.Machine
end

