-- ==== Sys2Proof/Machine/Ops.lean ====
section
/-! DEFINITION. What a transaction does to the ports (10_state.md R23, R28, R29): reading the command, presenting
inputs, reading outputs, driving a Word, a grid, or the outputs of a reserved command. Nothing writes an input
but its caller. -/

namespace Sys2Proof.Machine

/-- The inputs of one transaction (00_scope.md R15). -/
structure Inputs where
  cmd : BitVec 32
  a : BitVec 64
  b : BitVec 64
deriving DecidableEq, Repr

/-- The outputs of one transaction (00_scope.md R15). -/
structure Outputs where
  y : BitVec 64
  g : BitVec 16
  ill : BitVec 1
deriving DecidableEq, Repr

/-- The command word of the transaction: the value on `CMD`, presented by the caller and not fetched from a memory
(20_memory.md R43). -/
def State.command (s : State) : BitVec 32 := s.cmd

/-- The inputs the caller holds on the ports. -/
def State.inputs (s : State) : Inputs := ⟨s.cmd, s.a, s.b⟩

/-- What the caller reads on the output ports. -/
def State.outputs (s : State) : Outputs := ⟨s.y, s.g, s.ill⟩

/-- A caller presents the inputs of a transaction (10_state.md R23); the outputs have not settled yet. -/
def State.present (s : State) (x : Inputs) : State := { s with cmd := x.cmd, a := x.a, b := x.b }

/-- A caller presents a command word and holds `A` and `B` as they are. -/
def State.withCommand (s : State) (c : BitVec 32) : State := { s with cmd := c }

/-- Drive a result Word: `out.Y <- y`, `out.G <- 0`, `out.ILL <- 0` (10_state.md R28). -/
def State.driveWord (s : State) (i : Instr) (y : BitVec 64) : State :=
  { s with y := y, g := 0#16, ill := illOf (.op i) }

/-- Drive a result grid: `out.G <- g`, `out.Y <- 0`, `out.ILL <- 0` (10_state.md R28). -/
def State.driveGrid (s : State) (i : Instr) (g : BitVec 16) : State :=
  { s with y := 0#64, g := g, ill := illOf (.op i) }

/-- A reserved command word: `out.ILL <- 1`, `out.Y <- 0`, `out.G <- 0`; "it does nothing else" (30_encoding.md R52;
60_exceptions.md R109, R110). The cause cannot be observed (60_exceptions.md R113). -/
def takeReserved (r : Reserved) (s : State) : Host.Outcome State Fault Refusal :=
  .next { s with y := 0#64, g := 0#16, ill := illOf (.reserved r) }

end Sys2Proof.Machine
end

