-- ==== Sys2Proof/Machine/Decompose.lean ====
section
/-! DEFINITION. The bit decomposer (44_decompose.md) and the form of a Bool grid on the port `G` (10_state.md R26). -/

namespace Sys2Proof

/-- Slot `s` of a sub-vector (10_state.md R26). -/
def SubVector.slot (u : SubVector) : Fin 4 → Bool
  | 0 => u.slot0
  | 1 => u.slot1
  | 2 => u.slot2
  | 3 => u.slot3

/-- Sub-vector `v` of a Grid8: `grid[v]` (10_state.md R26). -/
def Grid8.sub (x : Grid8) : Fin 2 → SubVector
  | 0 => x.v0
  | 1 => x.v1

/-- Sub-vector `v` of a Grid16: `grid[v]` (10_state.md R26). -/
def Grid16.sub (x : Grid16) : Fin 4 → SubVector
  | 0 => x.v0
  | 1 => x.v1
  | 2 => x.v2
  | 3 => x.v3

namespace Machine

/-- `shr_W(v, k) & 1 = 1`: bit `k` as a boolean (44_decompose.md R98). -/
def bitIsSet {w : Nat} (v : Word w) (k : Nat) : Bool := shrW v k &&& BitVec.ofNat w 1 == BitVec.ofNat w 1

/-- The sub-vector of bits `base` to `base + 3`, bit `base` in slot 0 (44_decompose.md R98). -/
def subVectorAt {w : Nat} (v : Word w) (base : Nat) : SubVector where
  slot0 := bitIsSet v base
  slot1 := bitIsSet v (base + 1)
  slot2 := bitIsSet v (base + 2)
  slot3 := bitIsSet v (base + 3)

/-- `grid8(b)[v][s] = (shr_8(b, 4*v + s) & 1 = 1)` (44_decompose.md R98). -/
def grid8Of (b : Word 8) : Grid8 where
  v0 := subVectorAt b 0
  v1 := subVectorAt b 4

/-- The low byte of a 16-bit word, `h & 0xFF` (44_decompose.md R100; 20_memory.md R34). -/
def lowByte (h : Word 16) : Word 8 := truncW 8 (h &&& 0xFF#16).toNat

/-- The high byte of a 16-bit word, `shr_16(h, 8)` (44_decompose.md R100; 20_memory.md R34). -/
def highByte (h : Word 16) : Word 8 := truncW 8 (shrW h 8).toNat

/-- `grid16`: the low byte in sub-vectors 0 and 1, the high byte in 2 and 3 (44_decompose.md R100). -/
def grid16Of (h : Word 16) : Grid16 where
  v0 := (grid8Of (lowByte h)).v0
  v1 := (grid8Of (lowByte h)).v1
  v2 := (grid8Of (highByte h)).v0
  v3 := (grid8Of (highByte h)).v1

/-- A sub-vector as a 4-bit number, slot `s` of weight `2^s`, `true = 1` (10_state.md R26). -/
def subVectorValue (u : SubVector) : Nat :=
  u.slot0.toNat + 2 * u.slot1.toNat + 4 * u.slot2.toNat + 8 * u.slot3.toNat

/-- A Grid8 on the port: `grid[v][s]` is `G[4*v + s]`, and `G[15:8]` are 0 (10_state.md R26). -/
def portOfGrid8 (x : Grid8) : BitVec 16 :=
  BitVec.ofNat 16 (subVectorValue x.v0 + 16 * subVectorValue x.v1)

/-- A Grid16 on the port: `grid[v][s]` is `G[4*v + s]` (10_state.md R26). -/
def portOfGrid16 (x : Grid16) : BitVec 16 :=
  BitVec.ofNat 16 (subVectorValue x.v0 + 16 * subVectorValue x.v1 + 256 * subVectorValue x.v2
    + 4096 * subVectorValue x.v3)

/-- The Grid8 a caller reads on the port (10_state.md R26). -/
def grid8OfPort (g : BitVec 16) : Grid8 where
  v0 := subVectorAt g 0
  v1 := subVectorAt g 4

/-- The Grid16 a caller reads on the port (10_state.md R26). -/
def grid16OfPort (g : BitVec 16) : Grid16 where
  v0 := subVectorAt g 0
  v1 := subVectorAt g 4
  v2 := subVectorAt g 8
  v3 := subVectorAt g 12

/-- GRID8 (44_decompose.md R99). -/
def execGrid8 (s : State) : Host.Outcome State Fault Refusal :=
  .next (s.driveGrid .grid8 (portOfGrid8 (grid8Of (s.wordA 8))))

/-- GRID16 (44_decompose.md R101). -/
def execGrid16 (s : State) : Host.Outcome State Fault Refusal :=
  .next (s.driveGrid .grid16 (portOfGrid16 (grid16Of (s.wordA 16))))

end Machine

end Sys2Proof
end

