-- ==== Sys2Proof/Machine/Mask.lean ====
section
/-! DEFINITION. The mask generator (40_mask.md). -/

namespace Sys2Proof.Machine

/-- `mask_W(len) = if len >= W then 2^W - 1 else 2^len - 1` (40_mask.md R61). The comparison is explicit, as R66
demands. -/
def maskW (w len : Nat) : Word w := BitVec.ofNat w (if w ≤ len then 2 ^ w - 1 else 2 ^ len - 1)

/-- MASK (40_mask.md R62). Ports `A` and `B` are ignored. -/
def execMask (w : Width) (len : Nat) (s : State) : Host.Outcome State Fault Refusal :=
  .next (s.driveWord (.mask w len) (zext64 (maskW w.bits len)))

end Sys2Proof.Machine
end

