-- ==== Sys2Proof/Machine/Extract.lean ====
section
/-! DEFINITION. The field extractor (41_extract.md). -/

namespace Sys2Proof.Machine

/-- `get_W(f, len, off) = shr_W(f, off) & mask_W(len)` (41_extract.md R67). -/
def getW {w : Nat} (f : Word w) (len off : Nat) : Word w := shrW f off &&& maskW w len

/-- `Get(field, length)`: `field & mask(length)` (41_extract.md R69). -/
def get0W {w : Nat} (f : Word w) (len : Nat) : Word w := f &&& maskW w len

/-- GET (41_extract.md R68). -/
def execGet (w : Width) (len off : Nat) (s : State) : Host.Outcome State Fault Refusal :=
  .next (s.driveWord (.get w len off) (zext64 (getW (s.wordA w.bits) len off)))

/-- GET0 (41_extract.md R69), by DOC0's own formula for the shorter signature. -/
def execGet0 (w : Width) (len : Nat) (s : State) : Host.Outcome State Fault Refusal :=
  .next (s.driveWord (.get0 w len) (zext64 (get0W (s.wordA w.bits) len)))

end Sys2Proof.Machine
end

