-- ==== Sys2Proof/Machine/Insert.lean ====
section
/-! DEFINITION. The field inserter (42_insert.md). -/

namespace Sys2Proof.Machine

/-- The window of a field as a Word: `win = shl_W(mask_W(len), off)` (42_insert.md R74). -/
def windowW (w len off : Nat) : Word w := shlW (maskW w len) off

/-- `set_W(f, v, len, off) = (f & not_W(win)) | shl_W(v & m, off)` (42_insert.md R74). -/
def setW {w : Nat} (f v : Word w) (len off : Nat) : Word w :=
  (f &&& notW (windowW w len off)) ||| shlW (v &&& maskW w len) off

/-- `Set(field, value, length)`: `(field & ~mask(length)) | (value & mask(length))` (42_insert.md R76). -/
def set0W {w : Nat} (f v : Word w) (len : Nat) : Word w :=
  (f &&& notW (maskW w len)) ||| (v &&& maskW w len)

/-- SET (42_insert.md R75). -/
def execSet (w : Width) (len off : Nat) (s : State) : Host.Outcome State Fault Refusal :=
  .next (s.driveWord (.set w len off) (zext64 (setW (s.wordA w.bits) (s.wordB w.bits) len off)))

/-- SET0 (42_insert.md R76), by DOC0's own formula for the shorter signature. -/
def execSet0 (w : Width) (len : Nat) (s : State) : Host.Outcome State Fault Refusal :=
  .next (s.driveWord (.set0 w len) (zext64 (set0W (s.wordA w.bits) (s.wordB w.bits) len)))

end Sys2Proof.Machine
end

