-- ==== Sys2Proof/Machine/Swap.lean ====
section
/-! DEFINITION. The bit-swap permutation network (43_swap.md). -/

namespace Sys2Proof.Machine

/-- `x = (shr_W(w, i) ^ shr_W(w, j)) & mask_W(n)`: bit `k` says whether the bits at `i + k` and `j + k` differ
(43_swap.md R85). -/
def swapDiff {w : Nat} (v : Word w) (i j n : Nat) : Word w := (shrW v i ^^^ shrW v j) &&& maskW w n

/-- `swap_W(w, i, j, n) = w ^ (shl_W(x, i) | shl_W(x, j))`, one combined XOR swap (43_swap.md R85). -/
def swapW {w : Nat} (v : Word w) (i j n : Nat) : Word w :=
  v ^^^ (shlW (swapDiff v i j n) i ||| shlW (swapDiff v i j n) j)

/-- `x = ((word >> i) ^ (word >> j)) & 1` of `Swap(word, i, j)` (43_swap.md R87). -/
def swap1Diff {w : Nat} (v : Word w) (i j : Nat) : Word w := (shrW v i ^^^ shrW v j) &&& BitVec.ofNat w 1

/-- `Swap(word, i, j)`: `word ^ ((x << i) | (x << j))` (43_swap.md R87). -/
def swap1W {w : Nat} (v : Word w) (i j : Nat) : Word w :=
  v ^^^ (shlW (swap1Diff v i j) i ||| shlW (swap1Diff v i j) j)

/-- SWAP (43_swap.md R86). -/
def execSwap (w : Width) (i j n : Nat) (s : State) : Host.Outcome State Fault Refusal :=
  .next (s.driveWord (.swap w i j n) (zext64 (swapW (s.wordA w.bits) i j n)))

/-- SWAP1 (43_swap.md R87), by DOC0's own formula for the shorter signature. -/
def execSwap1 (w : Width) (i j : Nat) (s : State) : Host.Outcome State Fault Refusal :=
  .next (s.driveWord (.swap1 w i j) (zext64 (swap1W (s.wordA w.bits) i j)))

end Sys2Proof.Machine
end

