-- ==== Sys2Proof/Machine/Dispatch.lean ====
section
/-! DEFINITION. One arm per constructor of Instr, each one call of its meaning. -/

namespace Sys2Proof.Machine

/-- The transaction of one operation on the operands that the ports hold. -/
def exec (i : Instr) (s : State) : Host.Outcome State Fault Refusal :=
  match i with
  | .mask w len => Sys2Proof.Machine.execMask w len s
  | .get w len off => Sys2Proof.Machine.execGet w len off s
  | .set w len off => Sys2Proof.Machine.execSet w len off s
  | .swap w x y n => Sys2Proof.Machine.execSwap w x y n s
  | .grid8 => Sys2Proof.Machine.execGrid8 s
  | .grid16 => Sys2Proof.Machine.execGrid16 s
  | .get0 w len => Sys2Proof.Machine.execGet0 w len s
  | .set0 w len => Sys2Proof.Machine.execSet0 w len s
  | .swap1 w x y => Sys2Proof.Machine.execSwap1 w x y s

end Sys2Proof.Machine
end

