-- ==== Sys2Proof/Machine/Step.lean ====
section
/-! DEFINITION. One step is one transaction (00_scope.md R15): the outputs settle to the function of the inputs the
ports hold. Nothing is fetched and nothing is sequenced (10_state.md R19). -/

namespace Sys2Proof.Machine

/-- Decode the command word on `CMD` (30_encoding.md R51) and drive the outputs: those of the operation, or those of
a reserved command (R52). -/
def step (s : State) : Host.Outcome State Fault Refusal :=
  match decode s.command with
  | .op i => exec i s
  | .reserved r => takeReserved r s

/-- `s` with the command word of a table row on `CMD`: a caller presents it (20_memory.md R43; log entry 4). -/
def State.withFetchWord (s : State) (nbits w : Nat) : State := s.withCommand (tableWord nbits w)

end Sys2Proof.Machine
end

