-- ==== Sys2Proof/Machine/Caller.lean ====
section
/-! DEFINITION. The caller's side of the interface (10_state.md R23; 60_exceptions.md R117): one transaction, a sequence
of transactions on one block, and a call of a DOC0 function (30_encoding.md R58). Outside the block, over `step`. -/

namespace Sys2Proof.Machine

/-- Go on with the next state, or stop where the first outcome stopped. -/
def andThen {α β : Type} (o : Host.Outcome α Fault Refusal) (f : α → Host.Outcome β Fault Refusal) :
    Host.Outcome β Fault Refusal :=
  match o with
  | .next x => f x
  | .fault e => .fault e
  | .refused r => .refused r

/-- One transaction of a caller: it presents the inputs and lets the outputs settle (00_scope.md R15). -/
def transact (x : Inputs) (s : State) : Host.Outcome State Fault Refusal := step (s.present x)

/-- A transaction of a caller that rests on "no transaction asserted `ILL`": a reserved command is its fault
(30_encoding.md R52; 93_implementation_defined.md U6). -/
def checkedTransact (x : Inputs) (s : State) : Host.Outcome State Fault Refusal :=
  andThen (transact x s) fun t => if t.ill = 1#1 then .fault (.illAsserted x.cmd) else .next t

/-- Transactions of any callers, in the order one block serves them (60_exceptions.md R117), with the outputs each
caller reads. -/
def serve : List Inputs → State → Host.Outcome (State × List Outputs) Fault Refusal
  | [], s => .next (s, [])
  | x :: xs, s =>
    andThen (transact x s) fun t =>
      andThen (serve xs t) fun r => .next (r.1, t.outputs :: r.2)

/-- What a caller holds after a call or a listing line: a Word (as the number `Y[W-1:0]`) or a grid
(30_encoding.md R58, R59). -/
inductive Value where
  | word (v : BitVec 64)
  | grid8 (x : Grid8)
  | grid16 (x : Grid16)
deriving DecidableEq, Repr

/-- The result of the operation as the caller reads it on the settled ports: `Y[W-1:0]`, or the grid on `G`
(30_encoding.md R58, R59). -/
def resultOf (i : Instr) (t : State) : Value :=
  match i with
  | .mask w _ => .word (zext64 (truncW w.bits t.y.toNat))
  | .get w _ _ => .word (zext64 (truncW w.bits t.y.toNat))
  | .set w _ _ => .word (zext64 (truncW w.bits t.y.toNat))
  | .swap w _ _ _ => .word (zext64 (truncW w.bits t.y.toNat))
  | .grid8 => .grid8 (grid8OfPort t.g)
  | .grid16 => .grid16 (grid16OfPort t.g)
  | .get0 w _ => .word (zext64 (truncW w.bits t.y.toNat))
  | .set0 w _ => .word (zext64 (truncW w.bits t.y.toNat))
  | .swap1 w _ _ => .word (zext64 (truncW w.bits t.y.toNat))

/-- A DOC0 call as one transaction (30_encoding.md R58): the command word with each numeric argument replaced by
`min(p, 255)`, the data arguments on `A` and `B`, the return value read back. -/
def call (i : Instr) (a b : BitVec 64) (s : State) : Host.Outcome (State × Value) Fault Refusal :=
  andThen (checkedTransact ⟨encode i, a, b⟩ s) fun t => .next (t, resultOf i t)

end Sys2Proof.Machine
end

