-- ==== Sys2Proof/Reference.lean ====
section
/-! DEFINITION. The functions of the rules on natural numbers, as 95_test_vectors.md section 5 restates them
(00_scope.md R9 to R11, 40_mask.md R61, 41_extract.md R67, 42_insert.md R74, 43_swap.md R85). Statements compare the
machine with them; no definition of the machine uses them. -/

namespace Sys2Proof

open Sys2Proof.Machine

/-- `mask_W(len)` (40_mask.md R61). -/
def refMask (W len : Nat) : Nat := if W ≤ len then 2 ^ W - 1 else 2 ^ len - 1

/-- `shr_W(v, s)` (00_scope.md R10). -/
def refShr (v s : Nat) : Nat := v / 2 ^ s

/-- `shl_W(v, s)` (00_scope.md R11). -/
def refShl (W v s : Nat) : Nat := v * 2 ^ s % 2 ^ W

/-- `not_W(v)` (00_scope.md R9). -/
def refNot (W v : Nat) : Nat := 2 ^ W - 1 - v % 2 ^ W

/-- `get_W(f, len, off)` (41_extract.md R67). -/
def refGet (W f len off : Nat) : Nat := refShr f off &&& refMask W len

/-- `set_W(f, v, len, off)` (42_insert.md R74). -/
def refSet (W f v len off : Nat) : Nat :=
  (f &&& refNot W (refShl W (refMask W len) off)) ||| refShl W (v &&& refMask W len) off

/-- `swap_W(v, i, j, n)` (43_swap.md R85). -/
def refSwap (W v i j n : Nat) : Nat :=
  v ^^^ (refShl W ((refShr v i ^^^ refShr v j) &&& refMask W n) i
    ||| refShl W ((refShr v i ^^^ refShr v j) &&& refMask W n) j)

/-- Four bits of a port value as a sub-vector, bit `base` in slot 0 (44_decompose.md R98). -/
def refSub (a : BitVec 64) (base : Nat) : SubVector :=
  ⟨a.getLsbD base, a.getLsbD (base + 1), a.getLsbD (base + 2), a.getLsbD (base + 3)⟩

/-- The return value of the DOC0 call that an operation is, for arguments `a` and `b` of 64 bits of which it takes
the low `W` (30_encoding.md R56 to R58; 10_state.md R27). -/
def refValue (i : Instr) (a b : BitVec 64) : Value :=
  match i with
  | .mask w len => .word (BitVec.ofNat 64 (refMask w.bits len))
  | .get w len off => .word (BitVec.ofNat 64 (refGet w.bits (a.toNat % 2 ^ w.bits) len off))
  | .set w len off =>
    .word (BitVec.ofNat 64 (refSet w.bits (a.toNat % 2 ^ w.bits) (b.toNat % 2 ^ w.bits) len off))
  | .swap w x y n => .word (BitVec.ofNat 64 (refSwap w.bits (a.toNat % 2 ^ w.bits) x y n))
  | .grid8 => .grid8 ⟨refSub a 0, refSub a 4⟩
  | .grid16 => .grid16 ⟨refSub a 0, refSub a 4, refSub a 8, refSub a 12⟩
  | .get0 w len => .word (BitVec.ofNat 64 (refGet w.bits (a.toNat % 2 ^ w.bits) len 0))
  | .set0 w len =>
    .word (BitVec.ofNat 64 (refSet w.bits (a.toNat % 2 ^ w.bits) (b.toNat % 2 ^ w.bits) len 0))
  | .swap1 w x y => .word (BitVec.ofNat 64 (refSwap w.bits (a.toNat % 2 ^ w.bits) x y 1))

end Sys2Proof
end

