-- ==== Sys2Proof/Machine/Listing.lean ====
section
/-! DEFINITION. Listings (30_encoding.md R59): what a caller does with an environment of its own, one transaction a
line. "a notation for what a caller does, not a program the BFU runs". -/

namespace Sys2Proof.Machine

/-- The caller's environment from names to values (30_encoding.md R59), at most one entry a name. -/
abbrev Env := List (Nat × Value)

/-- A caller running a listing, and the block it presents to. -/
structure ListingState where
  env : Env
  bfu : State
deriving DecidableEq, Repr

/-- The value a name is bound to. -/
def lookupName : Env → Nat → Option Value
  | [], _ => none
  | (y, v) :: rest, x => if y = x then some v else lookupName rest x

/-- Bind a name: "A name may be bound again" (30_encoding.md R59). -/
def bindName (env : Env) (x : Nat) (v : Value) : Env := (x, v) :: env.filter fun e => e.1 != x

/-- The value presented for an operand: the literal, or the Word the name is bound to; an unbound name is refused
(30_encoding.md R59; 93_implementation_defined.md U7), and so is a grid (log entry 7). -/
def operandValue (env : Env) : Operand → Host.Outcome (BitVec 64) Fault Refusal
  | .lit v => .next v
  | .name x =>
    match lookupName env x with
    | none => .refused (.unboundName x)
    | some (.word v) => .next v
    | some (.grid8 _) => .refused (.operandIsGrid x)
    | some (.grid16 _) => .refused (.operandIsGrid x)

/-- The value presented on a port: the operand's, or what the port held where the operation has no operand for it
("any", 30_encoding.md R56; log entry 6). -/
def portValue (env : Env) (held : BitVec 64) : Option Operand → Host.Outcome (BitVec 64) Fault Refusal
  | none => .next held
  | some o => operandValue env o

/-- One line: one transaction with each named operand replaced by its current value, then the name bound to the
result (30_encoding.md R59). -/
def runLine (l : Line) (c : ListingState) : Host.Outcome ListingState Fault Refusal :=
  if l.wellFormed then
    andThen (portValue c.env c.bfu.a l.opA) fun a =>
      andThen (portValue c.env c.bfu.b l.opB) fun b =>
        andThen (call l.instr a b c.bfu) fun r => .next ⟨bindName c.env l.dest r.2, r.1⟩
  else .refused .illFormedLine

/-- A listing: its lines in order; it ends after its last line (30_encoding.md R59). -/
def runListing : List Line → ListingState → Host.Outcome ListingState Fault Refusal
  | [], c => .next c
  | l :: rest, c => andThen (runLine l c) (runListing rest)

end Sys2Proof.Machine
end

