-- ==== Sys2Proof/Safety.lean ====
section
/-! DEFINITION. The terms of claims about a run: a defined command, settled outputs, the routing of the outputs. -/

namespace Sys2Proof

open Sys2Proof.Machine

/-- The command word is defined: it is not reserved (30_encoding.md R51, R52). -/
def definedCommand (c : BitVec 32) : Bool :=
  match decode c with
  | .op _ => true
  | .reserved _ => false

/-- The outputs are those of the inputs the ports hold: another transaction of the same inputs changes nothing
(10_state.md R24; 20_memory.md R37). -/
def Settled (s : State) : Prop := step s = .next s

/-- The output routing of 10_state.md R23, R26, R27, R28 for the command on `CMD`: `ILL` is 1 iff the command is
reserved; then `Y` and `G` are 0; a Word operation leaves `G` 0 and `Y` below `2^W`; a grid operation leaves `Y` 0
and `G` below `2^W`. -/
def Routed (s : State) : Prop :=
  match decode s.cmd with
  | .reserved _ => s.ill = 1#1 ∧ s.y = 0#64 ∧ s.g = 0#16
  | .op i =>
    s.ill = 0#1 ∧
    if i.yieldsGrid then s.y = 0#64 ∧ s.g.toNat < 2 ^ i.width.bits
    else s.g = 0#16 ∧ s.y.toNat < 2 ^ i.width.bits

end Sys2Proof
end

