-- ==== Sys2Proof/Certificates/Slice0/Obligations.lean ====
section
/-! DEFINITION. The statements for the provers. Widths are Width, numeric parameters any natural, and the ports any
value, unless a statement says otherwise.

A statement has basis 'derived' in OBLIGATIONS.json where it rests on a sentence the spec marks as its own inference
('[derived: from ...]': R48 last sentence, R60, R63 'In general', R64, R65, R67 and R74 'Bit by bit', R73, R82 last
sentences, R84, R89 to R93, R95, R97, R100 'Hence', R103), or on a choice of the model (its docstring then names the log
entry). R52, R79 and R96 hold by the spec's own decisions D7, D8, D13, D14 (92_eei_decisions.md), which the model
follows. -/

open Sys2Proof Sys2Proof.Machine

/-! ## Terms of the statements -/

/-- The operation answers a next state in which `Y` is a value with `P`, `G` and `ILL` are 0, and nothing else has
changed (10_state.md R28, R29). -/
def Sys2Proof.DrivesWord (i : Instr) (s : State) (P : BitVec 64 → Prop) : Prop :=
  ∃ y, exec i s = .next { s with y := y, g := 0#16, ill := 0#1 } ∧ P y

/-- The operation answers a next state in which `G` is a value with `P`, `Y` and `ILL` are 0, and nothing else has
changed (10_state.md R28, R29). -/
def Sys2Proof.DrivesGrid (i : Instr) (s : State) (P : BitVec 16 → Prop) : Prop :=
  ∃ g, exec i s = .next { s with y := 0#64, g := g, ill := 0#1 } ∧ P g

/-- The caller carries the result forward: it presents `Y` as `A` of its next transaction (10_state.md R29;
70_reset_and_hazards.md R130). -/
def Sys2Proof.carryForward (s : State) : State := { s with a := s.y }

/-- Bit `k` of the operand Word `A[W-1:0]`, extended with zeros at and above `W`. -/
def Sys2Proof.bitA (w : Width) (s : State) (k : Nat) : Bool := decide (k < w.bits) && s.a.getLsbD k

/-- Bit `k` of the operand Word `B[W-1:0]`, extended with zeros at and above `W`. -/
def Sys2Proof.bitB (w : Width) (s : State) (k : Nat) : Bool := decide (k < w.bits) && s.b.getLsbD k

/-- Two windows of length `n` have no bit in common: `|i - j| >= n` (00_scope.md R16). -/
def Sys2Proof.Apart (i j n : Nat) : Prop := i + n ≤ j ∨ j + n ≤ i

/-- `n` single-bit swaps at `i + k`, `j + k` for `k = 0 .. n-1`, each on the result of the one before
(43_swap.md R92). -/
def Sys2Proof.swapSequence (w : Width) (i j : Nat) : Nat → State → Host.Outcome State Fault Refusal
  | 0, s => .next s
  | k + 1, s =>
    andThen (swapSequence w i j k s) fun t =>
      andThen (exec (.swap1 w (i + k) (j + k)) t) fun u => .next (carryForward u)

/-- The conditions under which 30_encoding.md R52 calls a command word reserved, on its bits. -/
abbrev Sys2Proof.ReservedWord (c : BitVec 32) : Prop :=
  c.extractLsb' 5 3 ≠ 0#3 ∨
  (c.extractLsb' 0 3 = 5#3 ∨ c.extractLsb' 0 3 = 6#3 ∨ c.extractLsb' 0 3 = 7#3) ∨
  (c.extractLsb' 0 3 = 4#3 ∧ (c.extractLsb' 3 2 = 2#2 ∨ c.extractLsb' 3 2 = 3#2)) ∨
  (c.extractLsb' 0 3 = 0#3 ∧ (c.extractLsb' 16 8 ≠ 0#8 ∨ c.extractLsb' 24 8 ≠ 0#8)) ∨
  ((c.extractLsb' 0 3 = 1#3 ∨ c.extractLsb' 0 3 = 2#3) ∧ c.extractLsb' 24 8 ≠ 0#8) ∨
  (c.extractLsb' 0 3 = 4#3 ∧
    (c.extractLsb' 8 8 ≠ 0#8 ∨ c.extractLsb' 16 8 ≠ 0#8 ∨ c.extractLsb' 24 8 ≠ 0#8))

/-! ## The command word -/

/-- 30_encoding.md R47: the width of a command word is `8 * 2^WSEL` with `WSEL = CMD[4:3]`, and all four values of
`WSEL` are legal for MASK, GET, SET and SWAP. -/
def Obligations.WidthIsEightTimesTwoToWsel : Prop :=
  (∀ c : BitVec 32, (fieldWidth c).bits = 8 * 2 ^ (c.extractLsb' 3 2).toNat) ∧
  (∀ w p q r, definedCommand (encode (.mask w p)) = true ∧ definedCommand (encode (.get w p q)) = true ∧
    definedCommand (encode (.set w p q)) = true ∧ definedCommand (encode (.swap w p q r)) = true)

/-- 95_test_vectors.md section 3.1: words of every family decode to the operations they stand for. -/
def Obligations.SampleWordsDecode : Prop :=
  decode 0x00004018#32 = .op (.mask .w64 64) ∧ decode 0x00FFFF19#32 = .op (.get .w64 255 255) ∧
  decode 0x00101012#32 = .op (.set .w32 16 16) ∧ decode 0x01070003#32 = .op (.swap .w8 0 7 1) ∧
  decode 0x00000004#32 = .op .grid8 ∧ decode 0x0000000C#32 = .op .grid16

/-- 30_encoding.md R60: decoding inverts encoding on every operation with every parameter value the fields admit (a
short form decodes to its expansion, R57), re-encoding a decoded word gives it back, and the worked example. -/
def Obligations.DecodeAndEncodeAreInverse : Prop :=
  (∀ i, i.wellFormed = true → decode (encode i) = .op i.expand) ∧
  (∀ c i, decode c = .op i → encode i = c ∧ i.wellFormed = true ∧ i.expand = i) ∧
  encode (.set .w32 16 16) = 0x00101012#32 ∧ decode 0x00101012#32 = .op (.set .w32 16 16)

/-- 30_encoding.md R55: a row of the opcode map selects exactly the words of its mnemonic, the first six rows are
disjoint, and the last three select exactly the words of the short forms. -/
def Obligations.OpcodeMapAgreesWithDecoder : Prop :=
  (∀ r ∈ coreRows, ∀ c, r.selects c = true ↔ ∃ i, decode c = .op i ∧ i.mnemonic = r.mnemonic) ∧
  (coreRows.Pairwise fun r q => ∀ c, ¬ (r.selects c = true ∧ q.selects c = true)) ∧
  (∀ r ∈ shortRows, ∀ c, r.selects c = true ↔
    ∃ i, i.wellFormed = true ∧ i.mnemonic = r.mnemonic ∧ encode i = c)

/-- 30_encoding.md R52: the words it lists are exactly the reserved ones; such a word gives `ILL = 1`, `Y = 0`,
`G = 0` and changes nothing else, and is a fault of a caller that rests on "no `ILL`"; every other word gives
`ILL = 0`. -/
def Obligations.ReservedWordsAssertIll : Prop :=
  ∀ s : State,
    (ReservedWord s.cmd → definedCommand s.cmd = false ∧
      step s = .next { s with y := 0#64, g := 0#16, ill := 1#1 } ∧
      checkedTransact s.inputs s = .fault (.illAsserted s.cmd)) ∧
    (¬ ReservedWord s.cmd → definedCommand s.cmd = true ∧
      ∃ t, step s = .next t ∧ t.ill = 0#1 ∧ checkedTransact s.inputs s = .next t)

/-- 30_encoding.md R51: 67 634 178 command words are legal. -/
def Obligations.CountOfLegalCommands : Prop :=
  Nat.card { c : BitVec 32 // definedCommand c = true } = 67634178

/-! ## A step -/

/-- The word on `CMD` decodes to an operation: the step is that operation on the same ports, and adds nothing. -/
def Obligations.StepRunsDecodedOperation : Prop :=
  ∀ (s : State) (i : Instr), decode s.cmd = .op i → step s = exec i s

/-- For every operation, short forms and parameters above 255 included: presenting its command word and letting the
outputs settle is the operation itself (30_encoding.md R48, R57, R58). -/
def Obligations.EncodedCommandRunsOperation : Prop :=
  ∀ (i : Instr) (s : State), step (s.withCommand (encode i)) = exec i (s.withCommand (encode i))

/-- 60_exceptions.md R111: every transaction has outputs, and changes no input (10_state.md R29). -/
def Obligations.EveryTransactionHasOutputs : Prop :=
  ∀ s : State, ∃ t, step s = .next t ∧ t.inputs = s.inputs

/-- 10_state.md R24: the outputs depend on the inputs of the transaction and on nothing else. -/
def Obligations.OutputsDependOnInputsOnly : Prop :=
  ∀ s s' : State, s.inputs = s'.inputs →
    ∃ t t', step s = .next t ∧ step s' = .next t' ∧ t.outputs = t'.outputs

/-- 20_memory.md R40: whatever transactions of whatever callers a block serves, in whatever state, each gets the
outputs it gets alone on a block right after reset; so the order of service is invisible. -/
def Obligations.ServiceOrderIsInvisible : Prop :=
  (∀ xs s, ∃ t outs, serve xs s = .next (t, outs) ∧
    List.Forall₂ (fun x o => ∃ u, transact x State.reset = .next u ∧ u.outputs = o) xs outs) ∧
  (∀ xs ys s s' t t' os os', xs.Perm ys → serve xs s = .next (t, os) → serve ys s' = .next (t', os') →
    (xs.zip os).Perm (ys.zip os'))

/-- The output routing of 10_state.md R23, R26 to R28 holds after every step, from every state (Routed is the
invariant; no premise is needed). -/
def Obligations.EveryStepIsRouted : Prop :=
  ∀ s s' : State, step s = .next s' → Routed s'

/-- 20_memory.md R37: presenting the same inputs again gives the same outputs and changes nothing, from every state. -/
def Obligations.EveryStepSettles : Prop :=
  ∀ s s' : State, step s = .next s' → Settled s'

/-- The ports before the first transaction, which are the model's choice (log entry 2; the spec has no reset value),
are settled and routed: 70_reset_and_hazards.md R121 has the outputs be the function of the inputs from power-up. -/
def Obligations.ResetIsSettledAndRouted : Prop := Settled State.reset ∧ Routed State.reset

/-- 10_state.md R27: an operation at width `W` reads only `A[W-1:0]`, and `B[W-1:0]` if it reads `B` at all, and
drives `Y[63:W] = 0`. -/
def Obligations.UpperPortBitsAreIgnored : Prop :=
  ∀ (i : Instr) (s s' : State),
    (i.usesA = true → s.a.toNat % 2 ^ i.width.bits = s'.a.toNat % 2 ^ i.width.bits) →
    (i.usesB = true → s.b.toNat % 2 ^ i.width.bits = s'.b.toNat % 2 ^ i.width.bits) →
    ∃ t t', exec i s = .next t ∧ exec i s' = .next t' ∧ t.outputs = t'.outputs ∧ t.y.toNat < 2 ^ i.width.bits

/-- 30_encoding.md R48: every result depends on each numeric parameter `p` only through `min(p, W)`. -/
def Obligations.ParametersMatterUpToTheWidth : Prop :=
  ∀ (i : Instr) (s : State), exec (i.mapParams fun p => min p i.width.bits) s = exec i s

/-! ## MASK -/

/-- 40_mask.md R62: MASK drives `mask_W(len)`, ignores `A` and `B`, and has the command word `8*WSEL + 256*len`. -/
def Obligations.MaskDrivesMask : Prop :=
  ∀ w len s,
    exec (.mask w len) s = .next { s with y := BitVec.ofNat 64 (refMask w.bits len), g := 0#16, ill := 0#1 } ∧
    (len ≤ 255 → (encode (.mask w len)).toNat = 0 + 8 * w.wsel + 256 * len)

/-- 40_mask.md R61: bit `k` of the mask is 1 iff `k < len` and `k < W`. -/
def Obligations.MaskBits : Prop :=
  ∀ w len s, DrivesWord (.mask w len) s fun y =>
    y.toNat = refMask w.bits len ∧ ∀ k, y.getLsbD k = (decide (k < len) && decide (k < w.bits))

/-- 40_mask.md R63: a mask has exactly `min(len, W)` bits set, the low ones; `mask(0) = 0`, `mask(W)` all ones. -/
def Obligations.MaskPopulation : Prop :=
  ∀ w len s, DrivesWord (.mask w len) s fun y =>
    ((Finset.range 64).filter fun k => y.getLsbD k = true) = Finset.range (min len w.bits) ∧
    (len = 0 → y.toNat = 0) ∧ (len = w.bits → y.toNat = 2 ^ w.bits - 1)

/-- 40_mask.md R64: masks are monotone in the length, as sets of bits and as numbers. -/
def Obligations.MaskMonotone : Prop :=
  ∀ w len1 len2 s, len1 ≤ len2 →
    DrivesWord (.mask w len1) s fun y1 => DrivesWord (.mask w len2) s fun y2 =>
      y1 &&& y2 = y1 ∧ y1.toNat ≤ y2.toNat

/-- 40_mask.md R65: masks saturate at `W`, and a mask at 64 bits narrowed to `W` is the mask at `W`. -/
def Obligations.MaskSaturates : Prop :=
  ∀ w len s,
    exec (.mask w len) s = exec (.mask w (min len w.bits)) s ∧
    (w.bits ≤ len → DrivesWord (.mask w len) s fun y => y.toNat = 2 ^ w.bits - 1) ∧
    DrivesWord (.mask w len) s fun y => DrivesWord (.mask .w64 len) s fun y64 =>
      y.toNat = y64.toNat % 2 ^ w.bits

/-! ## GET, GET0 -/

/-- 41_extract.md R68: GET drives `get_W(A[W-1:0], len, off)`; its command word. -/
def Obligations.GetDrivesField : Prop :=
  ∀ w len off s,
    exec (.get w len off) s = .next { s with
      y := BitVec.ofNat 64 (refGet w.bits (s.a.toNat % 2 ^ w.bits) len off), g := 0#16, ill := 0#1 } ∧
    (len ≤ 255 → off ≤ 255 → (encode (.get w len off)).toNat = 1 + 8 * w.wsel + 256 * len + 65536 * off)

/-- 41_extract.md R67: the formula, and bit by bit: bit `k` is 1 iff `k < len`, `off + k < W` and bit `off + k` of
the field is 1. -/
def Obligations.GetBits : Prop :=
  ∀ w len off s, DrivesWord (.get w len off) s fun y =>
    y.toNat = refShr (s.a.toNat % 2 ^ w.bits) off &&& refMask w.bits len ∧
    ∀ k, y.getLsbD k = (decide (k < len) && decide (off + k < w.bits) && s.a.getLsbD (off + k))

/-- 41_extract.md R70: an offset at or beyond the width gives 0. -/
def Obligations.GetOffsetBeyondWidthIsZero : Prop :=
  ∀ w len off s, w.bits ≤ off →
    exec (.get w len off) s = .next { s with y := 0#64, g := 0#16, ill := 0#1 }

/-- 41_extract.md R71: a window past the top gives the `W - off` bits that exist and zeros above them, as a GET of
`W - off` bits does. -/
def Obligations.GetWindowPastTop : Prop :=
  ∀ w len off s, off < w.bits → w.bits < off + len →
    exec (.get w len off) s = exec (.get w (w.bits - off) off) s ∧
    DrivesWord (.get w len off) s fun y =>
      (∀ k, k < w.bits - off → y.getLsbD k = s.a.getLsbD (off + k)) ∧
      ∀ k, w.bits - off ≤ k → y.getLsbD k = false

/-- 41_extract.md R72: length 0 gives 0; a length at or beyond the width gives the Word shifted down. -/
def Obligations.GetLengthExtremes : Prop :=
  ∀ w len off s,
    (len = 0 → DrivesWord (.get w len off) s fun y => y = 0#64) ∧
    (w.bits ≤ len → DrivesWord (.get w len off) s fun y =>
      y.toNat = s.a.toNat % 2 ^ w.bits / 2 ^ off ∧ (off = 0 → y.toNat = s.a.toNat % 2 ^ w.bits))

/-- 41_extract.md R73: the result is at most the mask and below `2^m`, `m = min(len, W - min(off, W))`; two Words that
agree on the window below `W` give the same result. -/
def Obligations.GetIsBoundedByItsWindow : Prop :=
  ∀ w len off s s',
    (DrivesWord (.get w len off) s fun y =>
      y.toNat ≤ refMask w.bits len ∧ y.toNat < 2 ^ min len (w.bits - min off w.bits)) ∧
    ((∀ k, off ≤ k → k < off + len → k < w.bits → s.a.getLsbD k = s'.a.getLsbD k) →
      DrivesWord (.get w len off) s fun y => DrivesWord (.get w len off) s' fun y' => y = y')

/-- 41_extract.md R69: GET0 is `field & mask(length)`, the same transaction as GET at offset 0, with GET's word. -/
def Obligations.GetZeroIsGetAtOffsetZero : Prop :=
  ∀ w len s,
    exec (.get0 w len) s = .next { s with
      y := BitVec.ofNat 64 (s.a.toNat % 2 ^ w.bits &&& refMask w.bits len), g := 0#16, ill := 0#1 } ∧
    exec (.get0 w len) s = exec (.get w len 0) s ∧ encode (.get0 w len) = encode (.get w len 0)

/-! ## SET, SET0 -/

/-- 42_insert.md R75: SET drives `set_W(A[W-1:0], B[W-1:0], len, off)`; its command word. -/
def Obligations.SetDrivesWord : Prop :=
  ∀ w len off s,
    exec (.set w len off) s = .next { s with
      y := BitVec.ofNat 64 (refSet w.bits (s.a.toNat % 2 ^ w.bits) (s.b.toNat % 2 ^ w.bits) len off),
      g := 0#16, ill := 0#1 } ∧
    (len ≤ 255 → off ≤ 255 → (encode (.set w len off)).toNat = 2 + 8 * w.wsel + 256 * len + 65536 * off)

/-- 42_insert.md R74: the formula, and bit by bit, for `k < W`: bit `k - off` of the value inside the window, bit `k`
of the field outside it. -/
def Obligations.SetBits : Prop :=
  ∀ w len off s, DrivesWord (.set w len off) s fun y =>
    y.toNat = refSet w.bits (s.a.toNat % 2 ^ w.bits) (s.b.toNat % 2 ^ w.bits) len off ∧
    ∀ k, k < w.bits →
      y.getLsbD k = if off ≤ k ∧ k < off + len then s.b.getLsbD (k - off) else s.a.getLsbD k

/-- 42_insert.md R77: only bits 0 to `min(len, W) - 1` of the value can reach the result. -/
def Obligations.SetDiscardsHighValueBits : Prop :=
  ∀ w len off s s', s.a = s'.a → (∀ k, k < min len w.bits → s.b.getLsbD k = s'.b.getLsbD k) →
    DrivesWord (.set w len off) s fun y => DrivesWord (.set w len off) s' fun y' => y = y'

/-- 42_insert.md R78: an offset at or beyond the width leaves the field as it was. -/
def Obligations.SetOffsetBeyondWidthKeepsField : Prop :=
  ∀ w len off s, w.bits ≤ off → DrivesWord (.set w len off) s fun y => y.toNat = s.a.toNat % 2 ^ w.bits

/-- 42_insert.md R79: a window past the top writes the `W - off` bits that exist, as a SET of `W - off` bits does;
reading the window back gives `v & mask_W(W - off)`. -/
def Obligations.SetWindowPastTop : Prop :=
  ∀ w len off s, off < w.bits → w.bits < off + len →
    exec (.set w len off) s = exec (.set w (w.bits - off) off) s ∧
    ∃ t, exec (.set w len off) s = .next t ∧
      (∀ k, off ≤ k → k < w.bits → t.y.getLsbD k = s.b.getLsbD (k - off)) ∧
      (∀ k, k < off → t.y.getLsbD k = s.a.getLsbD k) ∧
      DrivesWord (.get w len off) (carryForward t) fun y =>
        y.toNat = s.b.toNat % 2 ^ w.bits &&& refMask w.bits (w.bits - off)

/-- 42_insert.md R80: length 0 keeps the field; a length at or beyond the width replaces every bit from `off` up. -/
def Obligations.SetLengthExtremes : Prop :=
  ∀ w len off s,
    (len = 0 → DrivesWord (.set w len off) s fun y => y.toNat = s.a.toNat % 2 ^ w.bits) ∧
    (w.bits ≤ len → DrivesWord (.set w len off) s fun y =>
      (∀ k, k < w.bits → y.getLsbD k = if off ≤ k then s.b.getLsbD (k - off) else s.a.getLsbD k) ∧
      (off = 0 → y.toNat = s.b.toNat % 2 ^ w.bits))

/-- 42_insert.md R81, the round trip: with the window in range, a GET of the window a SET wrote returns
`v & mask_W(len)`. -/
def Obligations.SetThenGetRoundTrips : Prop :=
  ∀ w len off s, off + len ≤ w.bits →
    ∃ t, exec (.set w len off) s = .next t ∧
      DrivesWord (.get w len off) (carryForward t) fun y =>
        y.toNat = s.b.toNat % 2 ^ w.bits &&& refMask w.bits len

/-- 42_insert.md R84: the read-back of any window, in range or not. -/
def Obligations.SetThenGetInGeneral : Prop :=
  ∀ w len off s,
    ∃ t, exec (.set w len off) s = .next t ∧
      DrivesWord (.get w len off) (carryForward t) fun y =>
        y.toNat = s.b.toNat % 2 ^ w.bits &&& refMask w.bits (min len (w.bits - min off w.bits))

/-- 42_insert.md R82: a SET changes no bit outside its window, and a GET of a window apart from it returns the same
before and after. -/
def Obligations.SetDoesNotInterfere : Prop :=
  ∀ w len off s, ∃ t, exec (.set w len off) s = .next t ∧
    (∀ k, k < w.bits → (k < off ∨ off + len ≤ k) → t.y.getLsbD k = s.a.getLsbD k) ∧
    ∀ len' off', (off' + len' ≤ off ∨ off + len ≤ off') →
      DrivesWord (.get w len' off') s fun before =>
        DrivesWord (.get w len' off') (carryForward t) fun after => before = after

/-- 42_insert.md R83 (bit by bit by the derived form of R74): a second SET overwrites every bit of its window below
`W`, whatever an earlier SET put there, without any indication; the earlier write survives outside it; and the second
window, in range, reads back exactly the new value. -/
def Obligations.LaterSetOverwritesEarlier : Prop :=
  ∀ w len1 off1 len2 off2 s v, ∃ t u, exec (.set w len1 off1) s = .next t ∧
    exec (.set w len2 off2) { carryForward t with b := v } = .next u ∧ t.ill = 0#1 ∧ u.ill = 0#1 ∧
    (∀ k, k < w.bits →
      u.y.getLsbD k =
        if off2 ≤ k ∧ k < off2 + len2 then v.getLsbD (k - off2)
        else if off1 ≤ k ∧ k < off1 + len1 then s.b.getLsbD (k - off1)
        else s.a.getLsbD k) ∧
    (off2 + len2 ≤ w.bits → DrivesWord (.get w len2 off2) (carryForward u) fun y =>
      y.toNat = v.toNat % 2 ^ w.bits &&& refMask w.bits len2)

/-- 42_insert.md R76: SET0 is `(field & ~mask(length)) | (value & mask(length))`, the same transaction as SET at
offset 0, with SET's word. -/
def Obligations.SetZeroIsSetAtOffsetZero : Prop :=
  ∀ w len s,
    exec (.set0 w len) s = .next { s with
      y := BitVec.ofNat 64 ((s.a.toNat % 2 ^ w.bits &&& refNot w.bits (refMask w.bits len)) |||
        (s.b.toNat % 2 ^ w.bits &&& refMask w.bits len)), g := 0#16, ill := 0#1 } ∧
    exec (.set0 w len) s = exec (.set w len 0) s ∧ encode (.set0 w len) = encode (.set w len 0)

/-! ## SWAP, SWAP1 -/

/-- 43_swap.md R86 (the formula of R85): SWAP drives `swap_W(A[W-1:0], i, j, n)`; its command word. -/
def Obligations.SwapDrivesWord : Prop :=
  ∀ w i j n s,
    exec (.swap w i j n) s = .next { s with
      y := BitVec.ofNat 64 (refSwap w.bits (s.a.toNat % 2 ^ w.bits) i j n), g := 0#16, ill := 0#1 } ∧
    (i ≤ 255 → j ≤ 255 → n ≤ 255 →
      (encode (.swap w i j n)).toNat = 3 + 8 * w.wsel + 256 * i + 65536 * j + 16777216 * n)

/-- 43_swap.md R88: equal positions, or runs that hold the same bits, leave the word unchanged. -/
def Obligations.SwapOfEqualRunsKeepsWord : Prop :=
  ∀ w i j n s, (i = j ∨ ∀ k, k < n → bitA w s (i + k) = bitA w s (j + k)) →
    DrivesWord (.swap w i j n) s fun y => y.toNat = s.a.toNat % 2 ^ w.bits

/-- 43_swap.md R89: a run of length 0 leaves the word; a run at or beyond the width takes all of
`shr_W(w, i) ^ shr_W(w, j)`, and unless `i = j` one of its windows passes the top. -/
def Obligations.SwapLengthExtremes : Prop :=
  ∀ w i j n s,
    (n = 0 → DrivesWord (.swap w i j n) s fun y => y.toNat = s.a.toNat % 2 ^ w.bits) ∧
    (w.bits ≤ n →
      (DrivesWord (.swap w i j n) s fun y =>
        ∀ x, x = refShr (s.a.toNat % 2 ^ w.bits) i ^^^ refShr (s.a.toNat % 2 ^ w.bits) j →
          y.toNat = (s.a.toNat % 2 ^ w.bits) ^^^ (refShl w.bits x i ||| refShl w.bits x j)) ∧
      (i = j ∨ w.bits < i + n ∨ w.bits < j + n))

/-- 43_swap.md R90: windows in range and apart are exchanged cleanly. -/
def Obligations.CleanSwap : Prop :=
  ∀ w i j n s, i + n ≤ w.bits → j + n ≤ w.bits → Apart i j n →
    DrivesWord (.swap w i j n) s fun y =>
      (∀ k, k < n → y.getLsbD (i + k) = s.a.getLsbD (j + k) ∧ y.getLsbD (j + k) = s.a.getLsbD (i + k)) ∧
      ∀ k, k < w.bits → (k < i ∨ i + n ≤ k) → (k < j ∨ j + n ≤ k) → y.getLsbD k = s.a.getLsbD k

/-- 43_swap.md R91: on windows in range and apart, the swap undoes itself. -/
def Obligations.SwapIsAnInvolution : Prop :=
  ∀ w i j n s, i + n ≤ w.bits → j + n ≤ w.bits → Apart i j n →
    ∃ t, exec (.swap w i j n) s = .next t ∧
      DrivesWord (.swap w i j n) (carryForward t) fun y => y.toNat = s.a.toNat % 2 ^ w.bits

/-- 43_swap.md R92: the batch equals the sequence of single-bit swaps, for every pair of windows that are apart, in
range or not (and for `i = j`, 90_conflicts.md C10). -/
def Obligations.BatchSwapEqualsSequence : Prop :=
  ∀ w i j n s, (Apart i j n ∨ i = j) →
    ∃ t, swapSequence w i j n s = .next t ∧
      DrivesWord (.swap w i j n) s fun y => y.toNat = t.a.toNat % 2 ^ w.bits

/-- 43_swap.md R93: the swap is symmetric in `i` and `j`. -/
def Obligations.SwapIsSymmetric : Prop :=
  ∀ w i j n s, exec (.swap w i j n) s = exec (.swap w j i n) s

/-- 43_swap.md R97: bits outside both windows never change, overlap or not. -/
def Obligations.SwapKeepsBitsOutside : Prop :=
  ∀ w i j n s, DrivesWord (.swap w i j n) s fun y =>
    ∀ k, k < w.bits → (k < i ∨ i + n ≤ k) → (k < j ∨ j + n ≤ k) → y.getLsbD k = s.a.getLsbD k

/-- 43_swap.md R95: on windows apart, in range or not, positions at or above `W` read as 0 and are not written. -/
def Obligations.SwapPastTopExchangesWithZeros : Prop :=
  ∀ w i j n s, Apart i j n →
    DrivesWord (.swap w i j n) s fun y =>
      ∀ k, k < n →
        (i + k < w.bits → y.getLsbD (i + k) = bitA w s (j + k)) ∧
        (j + k < w.bits → y.getLsbD (j + k) = bitA w s (i + k))

/-- 43_swap.md R96: a position at or beyond the width: the run at the other one is cleared; both beyond: unchanged. -/
def Obligations.SwapPositionBeyondWidthClears : Prop :=
  ∀ w i j n s, w.bits ≤ i →
    (DrivesWord (.swap w i j n) s fun y => ∀ k, k < w.bits →
      y.getLsbD k = (s.a.getLsbD k && !(decide (j ≤ k) && decide (k < j + n)))) ∧
    exec (.swap w j i n) s = exec (.swap w i j n) s ∧
    (w.bits ≤ j → DrivesWord (.swap w i j n) s fun y => y.toNat = s.a.toNat % 2 ^ w.bits)

/-- 43_swap.md R94, R95: without its premises the swap is no involution and no sequence of single-bit swaps; the
words the spec gives. -/
def Obligations.SwapLawsNeedTheirPremises : Prop :=
  ∀ s : State,
    (DrivesWord (.swap .w8 0 1 2) { s with a := 1#64 } fun y => y = 2#64) ∧
    (DrivesWord (.swap .w8 0 1 2) { s with a := 2#64 } fun y => y = 5#64) ∧
    (DrivesWord (.swap1 .w8 0 1) { s with a := 1#64 } fun y => y = 2#64) ∧
    (DrivesWord (.swap1 .w8 1 2) { s with a := 2#64 } fun y => y = 4#64) ∧
    (DrivesWord (.swap .w8 6 0 4) { s with a := 8#64 } fun y => y = 0#64) ∧
    (DrivesWord (.swap .w8 6 0 4) { s with a := 0#64 } fun y => y = 0#64)

/-- 43_swap.md R87: SWAP1 is the XOR swap of one bit, the same transaction as SWAP with `n = 1`, with its word;
bit `i` and bit `j` are exchanged where both exist, and no other bit changes. -/
def Obligations.SwapOneIsSwapOfLengthOne : Prop :=
  ∀ w i j s,
    (DrivesWord (.swap1 w i j) s fun y =>
      ∀ x, x = (refShr (s.a.toNat % 2 ^ w.bits) i ^^^ refShr (s.a.toNat % 2 ^ w.bits) j) &&& 1 →
        y.toNat = (s.a.toNat % 2 ^ w.bits) ^^^ (refShl w.bits x i ||| refShl w.bits x j)) ∧
    (i < w.bits → j < w.bits → DrivesWord (.swap1 w i j) s fun y =>
      y.getLsbD i = s.a.getLsbD j ∧ y.getLsbD j = s.a.getLsbD i ∧
      ∀ k, k < w.bits → k ≠ i → k ≠ j → y.getLsbD k = s.a.getLsbD k) ∧
    exec (.swap1 w i j) s = exec (.swap w i j 1) s ∧ encode (.swap1 w i j) = encode (.swap w i j 1)

/-! ## GRID8, GRID16 -/

/-- 44_decompose.md R99: GRID8 drives `G[7:0]` with the grid of `A[7:0]` and 0 above, and the caller reads that grid
back; its command word. -/
def Obligations.GridEightDrivesGrid : Prop :=
  ∀ s, (DrivesGrid .grid8 s fun g =>
      (∀ v k, v < 2 → k < 4 → g.getLsbD (4 * v + k) = s.a.getLsbD (4 * v + k)) ∧
      (∀ k, 8 ≤ k → g.getLsbD k = false) ∧
      grid8OfPort g = grid8Of (s.wordA 8)) ∧
    encode .grid8 = 0x00000004#32

/-- 44_decompose.md R101: GRID16 drives `G[15:0]` with the grid of `A[15:0]`, and the caller reads that grid back;
its command word. -/
def Obligations.GridSixteenDrivesGrid : Prop :=
  ∀ s, (DrivesGrid .grid16 s fun g =>
      (∀ v k, v < 4 → k < 4 → g.getLsbD (4 * v + k) = s.a.getLsbD (4 * v + k)) ∧
      grid16OfPort g = grid16Of (s.wordA 16)) ∧
    encode .grid16 = 0x0000000C#32

/-- 44_decompose.md R98, R100: `grid[v][s]` is bit `4*v + s` of the word, and GRID16 is GRID8 of the low byte and then
of the high byte. -/
def Obligations.GridSlotsAreBits : Prop :=
  (∀ (b : Word 8) (v : Fin 2) (k : Fin 4), ((grid8Of b).sub v).slot k = b.getLsbD (4 * v + k)) ∧
  (∀ (h : Word 16) (v : Fin 4) (k : Fin 4), ((grid16Of h).sub v).slot k = h.getLsbD (4 * v + k)) ∧
  ∀ h : Word 16,
    (grid16Of h).v0 = (grid8Of (h.extractLsb' 0 8)).v0 ∧ (grid16Of h).v1 = (grid8Of (h.extractLsb' 0 8)).v1 ∧
    (grid16Of h).v2 = (grid8Of (h.extractLsb' 8 8)).v0 ∧ (grid16Of h).v3 = (grid8Of (h.extractLsb' 8 8)).v1

/-- 44_decompose.md R103: a grid determines its word. -/
def Obligations.GridDeterminesWord : Prop :=
  (∀ b : Word 8, b.toNat =
    ∑ v : Fin 2, ∑ k : Fin 4, if ((grid8Of b).sub v).slot k = true then 2 ^ (4 * v.val + k.val) else 0) ∧
  (∀ h : Word 16, h.toNat =
    ∑ v : Fin 4, ∑ k : Fin 4, if ((grid16Of h).sub v).slot k = true then 2 ^ (4 * v.val + k.val) else 0) ∧
  (∀ b b' : Word 8, grid8Of b = grid8Of b' → b = b') ∧
  (∀ h h' : Word 16, grid16Of h = grid16Of h' → h = h')

/-! ## The caller -/

/-- 30_encoding.md R58: a DOC0 call with arguments of any size, performed as one transaction, returns the value the
rules' functions on natural numbers give. -/
def Obligations.CallReturnsReferenceValue : Prop :=
  ∀ (i : Instr) (a b : BitVec 64) (s : State), ∃ t, call i a b s = .next (t, refValue i a b)

/-- 30_encoding.md R59: a line performs one transaction with each named operand replaced by its value, binds its name
to the result and leaves every other name. -/
def Obligations.ListingLineBindsItsResult : Prop :=
  ∀ (l : Line) (c : ListingState) (a b : BitVec 64), l.wellFormed = true →
    portValue c.env c.bfu.a l.opA = .next a → portValue c.env c.bfu.b l.opB = .next b →
    ∃ c', runLine l c = .next c' ∧ lookupName c'.env l.dest = some (refValue l.instr a b) ∧
      ∀ x, x ≠ l.dest → lookupName c'.env x = lookupName c.env x

/-- 30_encoding.md R59: a line that uses an unbound name is refused, not given a default value. -/
def Obligations.UnboundNameIsRefused : Prop :=
  ∀ (l : Line) (c : ListingState) (x : Nat), l.wellFormed = true → lookupName c.env x = none →
    (l.opA = some (.name x) → runLine l c = .refused (.unboundName x)) ∧
    (∀ a, portValue c.env c.bfu.a l.opA = .next a → l.opB = some (.name x) →
      runLine l c = .refused (.unboundName x))

/-- No transaction of a listing asserts `ILL`: no listing ends in a fault (30_encoding.md R52, R56, R59). -/
def Obligations.ListingsNeverFault : Prop :=
  ∀ (ls : List Line) (c : ListingState) (e : Fault), runListing ls c ≠ .fault e
end

