-- ==== Sys2Proof/Laws/Caller.lean ====
section
/-! SUPPORT. The caller's layer: sequencing of outcomes, and the environment of a listing. -/

namespace Sys2Proof.Machine

variable {α β : Type}

@[simp] theorem andThen_next (x : α) (f : α → Host.Outcome β Fault Refusal) : andThen (.next x) f = f x := rfl
@[simp] theorem andThen_fault (e : Fault) (f : α → Host.Outcome β Fault Refusal) :
    andThen (.fault e) f = .fault e := rfl
@[simp] theorem andThen_refused (r : Refusal) (f : α → Host.Outcome β Fault Refusal) :
    andThen (.refused r) f = .refused r := rfl

/-- A sequence that answers next went through a next state of its first part. -/
theorem andThen_eq_next {o : Host.Outcome α Fault Refusal} {f : α → Host.Outcome β Fault Refusal} {y : β}
    (h : andThen o f = .next y) : ∃ x, o = .next x ∧ f x = .next y := by
  cases o with
  | next x => exact ⟨x, rfl, h⟩
  | fault e => cases h
  | refused r => cases h

/-- A sequence faults only where one of its parts does. -/
theorem andThen_eq_fault {o : Host.Outcome α Fault Refusal} {f : α → Host.Outcome β Fault Refusal} {e : Fault}
    (h : andThen o f = .fault e) : o = .fault e ∨ ∃ x, o = .next x ∧ f x = .fault e := by
  cases o with
  | next x => exact .inr ⟨x, rfl, h⟩
  | fault e' => exact .inl (by cases h; rfl)
  | refused r => cases h

/-- A name just bound reads as its value. -/
theorem lookupName_bindName_self (env : Env) (x : Nat) (v : Value) : lookupName (bindName env x v) x = some v := by
  simp [bindName, lookupName]

/-- Binding a name leaves every other name as it was. -/
theorem lookupName_bindName_other (env : Env) {x y : Nat} (v : Value) (h : y ≠ x) :
    lookupName (bindName env x v) y = lookupName env y := by
  have filtered : ∀ e : Env, lookupName (e.filter fun p => p.1 != x) y = lookupName e y := by
    intro e
    induction e with
    | nil => rfl
    | cons p rest ih =>
      obtain ⟨z, u⟩ := p
      by_cases hz : z = x
      · simp [hz, ih, lookupName, h.symm]
      · simp [hz, lookupName, ih]
  simp only [bindName, lookupName]
  rw [if_neg (fun q => h q.symm), filtered]

end Sys2Proof.Machine
end

