-- ==== Sys2Proof/Laws/Decode.lean ====
section
/-! SUPPORT. The fields of an encoded command word, and the inversion of the decoder. -/

namespace Sys2Proof

theorem wsel_lt (w : Width) : w.wsel < 4 := by cases w <;> decide

@[simp] theorem ofWsel_wsel (w : Width) : Width.ofWsel w.wsel = w := by cases w <;> rfl

theorem wsel_ofWsel {n : Nat} (h : n < 4) : (Width.ofWsel n).wsel = n := by
  match n, h with
  | 0, _ => rfl
  | 1, _ => rfl
  | 2, _ => rfl
  | 3, _ => rfl

theorem presented_le (p : Nat) : presented p ≤ 255 := Nat.min_le_right _ _

theorem presented_lt (p : Nat) : presented p < 256 := Nat.lt_succ_of_le (presented_le p)

theorem presented_of_fits {p : Nat} (h : paramFits p = true) : presented p = p := by
  simp only [paramFits, decide_eq_true_eq] at h
  exact Nat.min_eq_left h

theorem paramFits_iff (p : Nat) : paramFits p = true ↔ p ≤ 255 := by
  rw [paramFits, decide_eq_true_eq]; rfl

section
variable {op p0 p1 p2 : Nat} (w : Width) (hop : op < 8) (h0 : p0 < 256) (h1 : p1 < 256) (h2 : p2 < 256)
include hop h0 h1 h2

theorem toNat_enc :
    (enc op w p0 p1 p2).toNat = op + 8 * w.wsel + 256 * p0 + 65536 * p1 + 16777216 * p2 := by
  have := wsel_lt w
  simp only [enc, BitVec.toNat_ofNat]
  exact Nat.mod_eq_of_lt (by omega)

theorem fieldOp_enc : fieldOp (enc op w p0 p1 p2) = op := by
  have := wsel_lt w
  simp only [fieldOp, slice, toNat_enc w hop h0 h1 h2]
  omega

theorem fieldWsel_enc : fieldWsel (enc op w p0 p1 p2) = w.wsel := by
  have := wsel_lt w
  simp only [fieldWsel, slice, toNat_enc w hop h0 h1 h2]
  omega

theorem fieldRsv_enc : fieldRsv (enc op w p0 p1 p2) = 0 := by
  have := wsel_lt w
  simp only [fieldRsv, slice, toNat_enc w hop h0 h1 h2]
  omega

theorem fieldP0_enc : fieldP0 (enc op w p0 p1 p2) = p0 := by
  have := wsel_lt w
  simp only [fieldP0, slice, toNat_enc w hop h0 h1 h2]
  omega

theorem fieldP1_enc : fieldP1 (enc op w p0 p1 p2) = p1 := by
  have := wsel_lt w
  simp only [fieldP1, slice, toNat_enc w hop h0 h1 h2]
  omega

theorem fieldP2_enc : fieldP2 (enc op w p0 p1 p2) = p2 := by
  have := wsel_lt w
  simp only [fieldP2, slice, toNat_enc w hop h0 h1 h2]
  omega

theorem fieldWidth_enc : fieldWidth (enc op w p0 p1 p2) = w := by
  simp [fieldWidth, fieldWsel_enc w hop h0 h1 h2]

end

/-- The command word is the number its six fields spell (30_encoding.md R44). -/
theorem toNat_eq_fields (c : BitVec 32) :
    c.toNat = fieldOp c + 8 * fieldWsel c + 32 * fieldRsv c + 256 * fieldP0 c + 65536 * fieldP1 c
      + 16777216 * fieldP2 c := by
  have := c.isLt
  simp only [fieldOp, fieldWsel, fieldRsv, fieldP0, fieldP1, fieldP2, slice]
  omega

theorem field_bounds (c : BitVec 32) :
    fieldOp c < 8 ∧ fieldWsel c < 4 ∧ fieldRsv c < 8 ∧ fieldP0 c < 256 ∧ fieldP1 c < 256 ∧ fieldP2 c < 256 := by
  simp only [fieldOp, fieldWsel, fieldRsv, fieldP0, fieldP1, fieldP2, slice]
  omega

/-- Everything a word that decodes to an operation can be: the six arms of 30_encoding.md R51. -/
theorem decode_op_cases {c : BitVec 32} {i : Instr} (h : decode c = .op i) :
    fieldRsv c = 0 ∧
    ((fieldOp c = 0 ∧ fieldP1 c = 0 ∧ fieldP2 c = 0 ∧ i = .mask (fieldWidth c) (fieldP0 c)) ∨
     (fieldOp c = 1 ∧ fieldP2 c = 0 ∧ i = .get (fieldWidth c) (fieldP0 c) (fieldP1 c)) ∨
     (fieldOp c = 2 ∧ fieldP2 c = 0 ∧ i = .set (fieldWidth c) (fieldP0 c) (fieldP1 c)) ∨
     (fieldOp c = 3 ∧ i = .swap (fieldWidth c) (fieldP0 c) (fieldP1 c) (fieldP2 c)) ∨
     (fieldOp c = 4 ∧ fieldWsel c = 0 ∧ fieldP0 c = 0 ∧ fieldP1 c = 0 ∧ fieldP2 c = 0 ∧ i = .grid8) ∨
     (fieldOp c = 4 ∧ fieldWsel c = 1 ∧ fieldP0 c = 0 ∧ fieldP1 c = 0 ∧ fieldP2 c = 0 ∧ i = .grid16)) := by
  unfold decode at h
  by_cases hr : fieldRsv c = 0
  · refine ⟨hr, ?_⟩
    simp only [hr, ne_eq, not_true_eq_false, if_false] at h
    split at h
    · rename_i q; exact .inl ⟨q.1, q.2.1, q.2.2, (Decoded.op.inj h).symm⟩
    split at h
    · rename_i q; exact .inr (.inl ⟨q.1, q.2, (Decoded.op.inj h).symm⟩)
    split at h
    · rename_i q; exact .inr (.inr (.inl ⟨q.1, q.2, (Decoded.op.inj h).symm⟩))
    split at h
    · rename_i q; exact .inr (.inr (.inr (.inl ⟨q, (Decoded.op.inj h).symm⟩)))
    split at h
    · rename_i q
      exact .inr (.inr (.inr (.inr (.inl ⟨q.1, q.2.1, q.2.2.1, q.2.2.2.1, q.2.2.2.2, (Decoded.op.inj h).symm⟩))))
    split at h
    · rename_i q
      exact .inr (.inr (.inr (.inr (.inr ⟨q.1, q.2.1, q.2.2.1, q.2.2.2.1, q.2.2.2.2, (Decoded.op.inj h).symm⟩))))
    · cases h
  · simp [hr] at h

end Sys2Proof
end

