-- ==== Sys2Proof/Laws/Operands.lean ====
section
/-! SUPPORT. What the Word primitives compute: as numbers (00_scope.md R9 to R11) and bit by bit. -/

namespace Sys2Proof

@[simp] theorem bits_w8 : Width.bits .w8 = 8 := rfl
@[simp] theorem bits_w16 : Width.bits .w16 = 16 := rfl
@[simp] theorem bits_w32 : Width.bits .w32 = 32 := rfl
@[simp] theorem bits_w64 : Width.bits .w64 = 64 := rfl

theorem bits_le (w : Width) : w.bits ≤ 64 := by cases w <;> decide

theorem bits_pos (w : Width) : 0 < w.bits := by cases w <;> decide

namespace Machine

variable {w : Nat}

@[simp] theorem toNat_truncW (a : Nat) : (truncW w a).toNat = a % 2 ^ w := by simp [truncW]

@[simp] theorem getLsbD_truncW (a k : Nat) : (truncW w a).getLsbD k = (decide (k < w) && a.testBit k) := by
  simp [truncW, BitVec.getLsbD, Nat.testBit_mod_two_pow]

theorem notW_eq (a : Word w) : notW a = ~~~a := by
  apply BitVec.eq_of_toNat_eq
  simp only [notW, BitVec.toNat_ofNat, BitVec.toNat_not]
  have := Nat.two_pow_pos w
  exact Nat.mod_eq_of_lt (by omega)

@[simp] theorem toNat_notW (a : Word w) : (notW a).toNat = 2 ^ w - 1 - a.toNat := by
  simp [notW_eq, BitVec.toNat_not]

@[simp] theorem getLsbD_notW (a : Word w) (k : Nat) : (notW a).getLsbD k = (decide (k < w) && !a.getLsbD k) := by
  simp [notW_eq]

@[simp] theorem toNat_shrW (v : Word w) (s : Nat) : (shrW v s).toNat = v.toNat / 2 ^ s := by
  simp only [shrW, BitVec.toNat_ofNat]
  exact Nat.mod_eq_of_lt (Nat.lt_of_le_of_lt (Nat.div_le_self _ _) v.isLt)

@[simp] theorem getLsbD_shrW (v : Word w) (s k : Nat) : (shrW v s).getLsbD k = v.getLsbD (s + k) := by
  rw [BitVec.getLsbD, toNat_shrW, Nat.testBit_div_two_pow, Nat.add_comm]; rfl

@[simp] theorem toNat_shlW (v : Word w) (s : Nat) : (shlW v s).toNat = v.toNat * 2 ^ s % 2 ^ w := by
  simp [shlW]

@[simp] theorem getLsbD_shlW (v : Word w) (s k : Nat) :
    (shlW v s).getLsbD k = (decide (k < w) && decide (s ≤ k) && v.getLsbD (k - s)) := by
  rw [BitVec.getLsbD, toNat_shlW, Nat.testBit_mod_two_pow, ← Nat.shiftLeft_eq, Nat.testBit_shiftLeft]
  simp [BitVec.getLsbD, Bool.and_assoc]

theorem toNat_zext64_of_le (h : w ≤ 64) (v : Word w) : (zext64 v).toNat = v.toNat := by
  simp only [zext64, BitVec.toNat_ofNat]
  exact Nat.mod_eq_of_lt (Nat.lt_of_lt_of_le v.isLt (Nat.pow_le_pow_right (by decide) h))

@[simp] theorem toNat_zext64 (x : Width) (v : Word x.bits) : (zext64 v).toNat = v.toNat :=
  toNat_zext64_of_le (bits_le x) v

@[simp] theorem getLsbD_zext64 (x : Width) (v : Word x.bits) (k : Nat) : (zext64 v).getLsbD k = v.getLsbD k := by
  simp [BitVec.getLsbD]

@[simp] theorem toNat_wordA (s : State) : (s.wordA w).toNat = s.a.toNat % 2 ^ w := by simp [State.wordA]

@[simp] theorem toNat_wordB (s : State) : (s.wordB w).toNat = s.b.toNat % 2 ^ w := by simp [State.wordB]

@[simp] theorem getLsbD_wordA (s : State) (k : Nat) :
    (s.wordA w).getLsbD k = (decide (k < w) && s.a.getLsbD k) := by simp [State.wordA, BitVec.getLsbD]

@[simp] theorem getLsbD_wordB (s : State) (k : Nat) :
    (s.wordB w).getLsbD k = (decide (k < w) && s.b.getLsbD k) := by simp [State.wordB, BitVec.getLsbD]

theorem toNat_maskW (len : Nat) : (maskW w len).toNat = if w ≤ len then 2 ^ w - 1 else 2 ^ len - 1 := by
  simp only [maskW, BitVec.toNat_ofNat]
  apply Nat.mod_eq_of_lt
  have hw := Nat.two_pow_pos w
  split
  · omega
  · have := Nat.pow_lt_pow_right (a := 2) (by decide) (show len < w by omega)
    omega

@[simp] theorem getLsbD_maskW (len k : Nat) : (maskW w len).getLsbD k = (decide (k < w) && decide (k < len)) := by
  rw [BitVec.getLsbD, toNat_maskW]
  split <;> rw [Nat.testBit_two_pow_sub_one] <;> by_cases hk : k < w <;> by_cases hl : k < len <;> simp [hk, hl] <;> omega

/-- Bit `k` of a Word as the decomposer reads it (44_decompose.md R98). -/
theorem bitIsSet_eq (hw : 0 < w) (v : Word w) (k : Nat) : bitIsSet v k = v.getLsbD k := by
  have h1 : BitVec.ofNat w 1 ≠ 0#w := by
    intro h
    have := congrArg BitVec.toNat h
    have h2 : 1 < 2 ^ w := Nat.one_lt_two_pow (by omega)
    simp [Nat.mod_eq_of_lt h2] at this
  have key : shrW v k &&& BitVec.ofNat w 1 = if v.getLsbD k then BitVec.ofNat w 1 else 0#w := by
    apply BitVec.eq_of_getLsbD_eq
    intro m hm
    rw [BitVec.getLsbD_and, getLsbD_shrW]
    rcases m with _ | m
    · rw [Nat.add_zero]; cases v.getLsbD k <;> simp
    · have : Nat.testBit 1 (m + 1) = false := by simp [Nat.testBit_succ]
      cases h : v.getLsbD k <;> simp [BitVec.getLsbD_ofNat, this]
  rw [bitIsSet, key]
  cases v.getLsbD k <;> simp [Ne.symm h1]

end Machine

end Sys2Proof
end

