-- ==== Sys2Proof/Laws/Functions.lean ====
section
/-! SUPPORT. One lemma per function unit: every bit of what it computes (40_mask.md to 44_decompose.md). -/

namespace Sys2Proof.Machine

variable {w : Nat}

/-- Every bit of `get_W` (41_extract.md R67). -/
theorem getLsbD_getW (f : Word w) (len off k : Nat) :
    (getW f len off).getLsbD k = (decide (k < len) && f.getLsbD (off + k)) := by
  rw [getW, BitVec.getLsbD_and, getLsbD_shrW, getLsbD_maskW]
  by_cases h : k < w
  · simp [h, Bool.and_comm]
  · simp [BitVec.getLsbD_of_ge f (off + k) (by omega)]

/-- Every bit of `Get(field, length)` (41_extract.md R69). -/
theorem getLsbD_get0W (f : Word w) (len k : Nat) :
    (get0W f len).getLsbD k = (decide (k < len) && f.getLsbD k) := by
  have h : get0W f len = getW f len 0 := by
    apply BitVec.eq_of_toNat_eq
    simp [get0W, getW]
  simpa [h] using getLsbD_getW f len 0 k

/-- The window of a field, bit by bit (42_insert.md R74). -/
theorem getLsbD_windowW (len off k : Nat) :
    (windowW w len off).getLsbD k = (decide (k < w) && decide (off ≤ k) && decide (k < off + len)) := by
  rw [windowW, getLsbD_shlW, getLsbD_maskW]
  by_cases h1 : k < w <;> by_cases h2 : off ≤ k
  · simp only [h1, h2, decide_true, Bool.true_and, show k - off < w by omega, decide_eq_decide]
    omega
  all_goals simp [h1, h2]

/-- Every bit of `set_W` below `W` (42_insert.md R74). -/
theorem getLsbD_setW (f v : Word w) (len off k : Nat) (hk : k < w) :
    (setW f v len off).getLsbD k = if off ≤ k ∧ k < off + len then v.getLsbD (k - off) else f.getLsbD k := by
  rw [setW, BitVec.getLsbD_or, BitVec.getLsbD_and, getLsbD_notW, getLsbD_windowW, getLsbD_shlW,
    BitVec.getLsbD_and, getLsbD_maskW]
  by_cases h1 : off ≤ k
  · have h3 : k - off < w := by omega
    by_cases h2 : k < off + len
    · simp [h1, h2, h3, hk, show k - off < len by omega]
    · simp [h1, h2, hk, show ¬ k - off < len by omega]
  · simp [h1, hk]

/-- Every bit of `swap_W` below `W` (43_swap.md R85). -/
theorem getLsbD_swapW (v : Word w) (i j n k : Nat) (hk : k < w) :
    (swapW v i j n).getLsbD k =
      (v.getLsbD k ^^
        ((decide (i ≤ k) && decide (k < i + n) && (v.getLsbD k ^^ v.getLsbD (j + (k - i)))) ||
         (decide (j ≤ k) && decide (k < j + n) && (v.getLsbD (i + (k - j)) ^^ v.getLsbD k)))) := by
  have diff : ∀ p, p ≤ k → (swapDiff v i j n).getLsbD (k - p) =
      (decide (k < p + n) && (v.getLsbD (i + (k - p)) ^^ v.getLsbD (j + (k - p)))) := by
    intro p hp
    rw [swapDiff, BitVec.getLsbD_and, BitVec.getLsbD_xor, getLsbD_shrW, getLsbD_shrW, getLsbD_maskW, Bool.and_comm]
    simp only [show k - p < w by omega, decide_true, Bool.true_and,
      show (k - p < n) = (k < p + n) from propext (by omega)]
  rw [swapW, BitVec.getLsbD_xor, BitVec.getLsbD_or, getLsbD_shlW, getLsbD_shlW]
  by_cases hi : i ≤ k <;> by_cases hj : j ≤ k
  · simp [hk, hi, hj, diff i hi, diff j hj]
  · simp [hk, hi, hj, diff i hi]
  · simp [hk, hi, hj, diff j hj]
  · simp [hi, hj]

/-- `Swap(word, i, j)` is `Swap(word, i, j, 1)`, since `mask_W(1) = 1` (43_swap.md R87). -/
theorem swap1W_eq (hw : 0 < w) (v : Word w) (i j : Nat) : swap1W v i j = swapW v i j 1 := by
  have h : BitVec.ofNat w 1 = maskW w 1 := by
    apply BitVec.eq_of_toNat_eq
    have h1 : 1 < 2 ^ w := Nat.one_lt_two_pow (by omega)
    rw [toNat_maskW, BitVec.toNat_ofNat, Nat.mod_eq_of_lt h1]
    split
    · have : w = 1 := by omega
      simp [this]
    · rfl
  simp only [swap1W, swapW, swap1Diff, swapDiff, h]

end Sys2Proof.Machine
end

