-- ==== Sys2Proof/Laws/PerInstr.lean ====
section
/-! SUPPORT. A family of lemmas, one per constructor of Instr: the fields every encoded command word has in common
(30_encoding.md R44, R45, R49), for parameters of any size. -/

namespace Sys2Proof

/-- The operation code of each operation (30_encoding.md R45); a short form has its full operation's. -/
def Laws.EncodeFields.opCode : Instr → Nat
  | .mask _ _ => 0
  | .get _ _ _ => 1
  | .set _ _ _ => 2
  | .swap _ _ _ _ => 3
  | .grid8 => 4
  | .grid16 => 4
  | .get0 _ _ => 1
  | .set0 _ _ => 2
  | .swap1 _ _ _ => 3

/-- The encoded word has the operation's code in `OP`, its width in `WSEL`, and `RSV = 0`. -/
def Laws.EncodeFields.Statement (i : Instr) : Prop :=
  fieldOp (encode i) = Laws.EncodeFields.opCode i ∧ fieldWidth (encode i) = i.width ∧ fieldRsv (encode i) = 0

theorem Laws.EncodeFields.of_enc {op p0 p1 p2 : Nat} (w : Width) (hop : op < 8) (h0 : p0 < 256) (h1 : p1 < 256)
    (h2 : p2 < 256) : fieldOp (enc op w p0 p1 p2) = op ∧ fieldWidth (enc op w p0 p1 p2) = w ∧
      fieldRsv (enc op w p0 p1 p2) = 0 :=
  ⟨fieldOp_enc w hop h0 h1 h2, fieldWidth_enc w hop h0 h1 h2, fieldRsv_enc w hop h0 h1 h2⟩

theorem Laws.EncodeFields.mask (w : Width) (len : Nat) : Laws.EncodeFields.Statement (.mask w len) :=
  Laws.EncodeFields.of_enc w (by decide) (presented_lt _) (by decide) (by decide)

theorem Laws.EncodeFields.get (w : Width) (len off : Nat) : Laws.EncodeFields.Statement (.get w len off) :=
  Laws.EncodeFields.of_enc w (by decide) (presented_lt _) (presented_lt _) (by decide)

theorem Laws.EncodeFields.set (w : Width) (len off : Nat) : Laws.EncodeFields.Statement (.set w len off) :=
  Laws.EncodeFields.of_enc w (by decide) (presented_lt _) (presented_lt _) (by decide)

theorem Laws.EncodeFields.swap (w : Width) (i j n : Nat) : Laws.EncodeFields.Statement (.swap w i j n) :=
  Laws.EncodeFields.of_enc w (by decide) (presented_lt _) (presented_lt _) (presented_lt _)

theorem Laws.EncodeFields.grid8 : Laws.EncodeFields.Statement .grid8 :=
  Laws.EncodeFields.of_enc .w8 (by decide) (by decide) (by decide) (by decide)

theorem Laws.EncodeFields.grid16 : Laws.EncodeFields.Statement .grid16 :=
  Laws.EncodeFields.of_enc .w16 (by decide) (by decide) (by decide) (by decide)

theorem Laws.EncodeFields.get0 (w : Width) (len : Nat) : Laws.EncodeFields.Statement (.get0 w len) :=
  Laws.EncodeFields.of_enc w (by decide) (presented_lt _) (by decide) (by decide)

theorem Laws.EncodeFields.set0 (w : Width) (len : Nat) : Laws.EncodeFields.Statement (.set0 w len) :=
  Laws.EncodeFields.of_enc w (by decide) (presented_lt _) (by decide) (by decide)

theorem Laws.EncodeFields.swap1 (w : Width) (i j : Nat) : Laws.EncodeFields.Statement (.swap1 w i j) :=
  Laws.EncodeFields.of_enc w (by decide) (presented_lt _) (presented_lt _) (by decide)

end Sys2Proof
end

