-- ==== Sys2Proof/Laws/State.lean ====
section
/-! SUPPORT. One lemma per field per update of State, true by rfl; the widths of the ports are Config's. -/

namespace Sys2Proof.Machine

@[simp] theorem present_cmd (s : State) (x : Inputs) : (s.present x).cmd = x.cmd := rfl
@[simp] theorem present_a (s : State) (x : Inputs) : (s.present x).a = x.a := rfl
@[simp] theorem present_b (s : State) (x : Inputs) : (s.present x).b = x.b := rfl
@[simp] theorem present_y (s : State) (x : Inputs) : (s.present x).y = s.y := rfl
@[simp] theorem present_g (s : State) (x : Inputs) : (s.present x).g = s.g := rfl
@[simp] theorem present_ill (s : State) (x : Inputs) : (s.present x).ill = s.ill := rfl

@[simp] theorem withCommand_cmd (s : State) (c : BitVec 32) : (s.withCommand c).cmd = c := rfl
@[simp] theorem withCommand_a (s : State) (c : BitVec 32) : (s.withCommand c).a = s.a := rfl
@[simp] theorem withCommand_b (s : State) (c : BitVec 32) : (s.withCommand c).b = s.b := rfl
@[simp] theorem withCommand_y (s : State) (c : BitVec 32) : (s.withCommand c).y = s.y := rfl
@[simp] theorem withCommand_g (s : State) (c : BitVec 32) : (s.withCommand c).g = s.g := rfl
@[simp] theorem withCommand_ill (s : State) (c : BitVec 32) : (s.withCommand c).ill = s.ill := rfl

@[simp] theorem driveWord_cmd (s : State) (i : Instr) (y : BitVec 64) : (s.driveWord i y).cmd = s.cmd := rfl
@[simp] theorem driveWord_a (s : State) (i : Instr) (y : BitVec 64) : (s.driveWord i y).a = s.a := rfl
@[simp] theorem driveWord_b (s : State) (i : Instr) (y : BitVec 64) : (s.driveWord i y).b = s.b := rfl
@[simp] theorem driveWord_y (s : State) (i : Instr) (y : BitVec 64) : (s.driveWord i y).y = y := rfl
@[simp] theorem driveWord_g (s : State) (i : Instr) (y : BitVec 64) : (s.driveWord i y).g = 0#16 := rfl
@[simp] theorem driveWord_ill (s : State) (i : Instr) (y : BitVec 64) : (s.driveWord i y).ill = 0#1 := rfl

@[simp] theorem driveGrid_cmd (s : State) (i : Instr) (g : BitVec 16) : (s.driveGrid i g).cmd = s.cmd := rfl
@[simp] theorem driveGrid_a (s : State) (i : Instr) (g : BitVec 16) : (s.driveGrid i g).a = s.a := rfl
@[simp] theorem driveGrid_b (s : State) (i : Instr) (g : BitVec 16) : (s.driveGrid i g).b = s.b := rfl
@[simp] theorem driveGrid_y (s : State) (i : Instr) (g : BitVec 16) : (s.driveGrid i g).y = 0#64 := rfl
@[simp] theorem driveGrid_g (s : State) (i : Instr) (g : BitVec 16) : (s.driveGrid i g).g = g := rfl
@[simp] theorem driveGrid_ill (s : State) (i : Instr) (g : BitVec 16) : (s.driveGrid i g).ill = 0#1 := rfl

@[simp] theorem command_eq (s : State) : s.command = s.cmd := rfl
@[simp] theorem withFetchWord_eq (s : State) (nbits w : Nat) :
    s.withFetchWord nbits w = s.withCommand (tableWord nbits w) := rfl

/-- The port widths of 10_state.md R23 are the parameters of 00_scope.md R6. -/
theorem port_widths : Config.commandWidth = 32 ∧ Config.dataWidth = 64 ∧ Config.gridWidth = 16 :=
  ⟨rfl, rfl, rfl⟩

end Sys2Proof.Machine
end

