-- ==== Sys2Proof/Laws/Step.lean ====
section
/-! SUPPORT. Once each: what `exec`, a reserved command and `step` can answer. -/

namespace Sys2Proof.Machine

/-- `exec` always answers a next state, and drives a Word or a grid; the inputs stand (10_state.md R28, R29). -/
theorem exec_cases (i : Instr) (s : State) :
    (i.yieldsGrid = false ∧ ∃ v : Word i.width.bits, exec i s = .next (s.driveWord i (zext64 v))) ∨
    (i.yieldsGrid = true ∧ ∃ g : BitVec 16, exec i s = .next (s.driveGrid i g)) := by
  cases i
  case grid8 => exact .inr ⟨rfl, _, rfl⟩
  case grid16 => exact .inr ⟨rfl, _, rfl⟩
  all_goals exact .inl ⟨rfl, _, rfl⟩

/-- A reserved command drives `ILL = 1`, `Y = 0`, `G = 0` and nothing else, whatever its cause
(30_encoding.md R52; 60_exceptions.md R113). -/
theorem takeReserved_eq (r : Reserved) (s : State) :
    takeReserved r s = .next { s with y := 0#64, g := 0#16, ill := 1#1 } := rfl

/-- What a step can do: the operation the command word decodes to, or the outputs of a reserved command. -/
theorem step_cases (s : State) :
    (∃ i, decode s.cmd = .op i ∧ step s = exec i s) ∨
    (∃ r, decode s.cmd = .reserved r ∧ step s = .next { s with y := 0#64, g := 0#16, ill := 1#1 }) := by
  unfold step
  rw [command_eq]
  cases h : decode s.cmd with
  | op i => exact .inl ⟨i, rfl, rfl⟩
  | reserved r => exact .inr ⟨r, rfl, rfl⟩

end Sys2Proof.Machine
end

