-- ==== Sys2Proof/Tests/Slice0.lean ====
section
/-! SUPPORT. Tests on single steps, with expected values from 95_test_vectors.md and the examples of the rules, and a
witness for every statement that has hypotheses. -/

namespace Sys2Proof.Tests

open Sys2Proof Sys2Proof.Machine

/-- The ports with the given inputs, and outputs that no test expects. -/
def ports (cmd : BitVec 32) (a b : BitVec 64) : State := ⟨cmd, a, b, 0xDEAD#64, 0xBEEF#16, 1#1⟩

/-- The outputs after a step, none if it stops. -/
def outputsOf : Host.Outcome State Fault Refusal → Option Outputs
  | .next t => some t.outputs
  | .fault _ => none
  | .refused _ => none

/-- The refusal a listing ends in, if it does. -/
def refusalOf : Host.Outcome ListingState Fault Refusal → Option Refusal
  | .next _ => none
  | .fault _ => none
  | .refused r => some r

/-- The fault a checked transaction ends in, if it does. -/
def faultOf : Host.Outcome State Fault Refusal → Option Fault
  | .next _ => none
  | .fault e => some e
  | .refused _ => none

/-- The value of name 0 after a listing. -/
def nameZero : Host.Outcome ListingState Fault Refusal → Option Value
  | .next c => lookupName c.env 0
  | .fault _ => none
  | .refused _ => none

/-! ## WellFormed: an ill-formed term for each check -/

theorem test_wf_mask_len : Instr.wellFormed (.mask .w8 256) = false := by decide
theorem test_wf_get_len : Instr.wellFormed (.get .w8 256 0) = false := by decide
theorem test_wf_get_off : Instr.wellFormed (.get .w8 0 256) = false := by decide
theorem test_wf_set_len : Instr.wellFormed (.set .w8 256 0) = false := by decide
theorem test_wf_set_off : Instr.wellFormed (.set .w8 0 256) = false := by decide
theorem test_wf_swap_i : Instr.wellFormed (.swap .w8 256 0 0) = false := by decide
theorem test_wf_swap_j : Instr.wellFormed (.swap .w8 0 256 0) = false := by decide
theorem test_wf_swap_n : Instr.wellFormed (.swap .w8 0 0 256) = false := by decide
theorem test_wf_get0_len : Instr.wellFormed (.get0 .w8 256) = false := by decide
theorem test_wf_set0_len : Instr.wellFormed (.set0 .w8 256) = false := by decide
theorem test_wf_swap1_i : Instr.wellFormed (.swap1 .w8 256 0) = false := by decide
theorem test_wf_swap1_j : Instr.wellFormed (.swap1 .w8 0 256) = false := by decide
theorem test_wf_largest : Instr.wellFormed (.swap .w64 255 255 255) = true := by decide
theorem test_wf_line_literal : Line.wellFormed ⟨0, .mask .w8 256, none, none⟩ = false := by decide
theorem test_wf_line_missing : Line.wellFormed ⟨0, .get .w8 4 0, none, none⟩ = false := by decide
theorem test_wf_line_surplus : Line.wellFormed ⟨0, .grid8, some (.lit 1#64), some (.lit 1#64)⟩ = false := by decide

/-! ## Decoding: words written out from the fields of 30_encoding.md R44, `P2 ++ P1 ++ P0 ++ RSV ++ WSEL ++ OP` -/

theorem test_decode_mask :
    decode (0b00000000#8 ++ 0b00000000#8 ++ 0b01000000#8 ++ 0b000#3 ++ 0b11#2 ++ 0b000#3) = .op (.mask .w64 64) := by
  decide
theorem test_decode_get :
    decode (0b00000000#8 ++ 0b00000100#8 ++ 0b00001000#8 ++ 0b000#3 ++ 0b01#2 ++ 0b001#3) = .op (.get .w16 8 4) := by
  decide
theorem test_decode_set :
    decode (0b00000000#8 ++ 0b00011110#8 ++ 0b00000100#8 ++ 0b000#3 ++ 0b10#2 ++ 0b010#3) = .op (.set .w32 4 30) := by
  decide
theorem test_decode_swap :
    decode (0b00000011#8 ++ 0b00000101#8 ++ 0b00000001#8 ++ 0b000#3 ++ 0b00#2 ++ 0b011#3) = .op (.swap .w8 1 5 3) := by
  decide
theorem test_decode_grid8 :
    decode (0b00000000#8 ++ 0b00000000#8 ++ 0b00000000#8 ++ 0b000#3 ++ 0b00#2 ++ 0b100#3) = .op .grid8 := by decide
theorem test_decode_grid16 :
    decode (0b00000000#8 ++ 0b00000000#8 ++ 0b00000000#8 ++ 0b000#3 ++ 0b01#2 ++ 0b100#3) = .op .grid16 := by decide
/-- The short forms have no encoding of their own (30_encoding.md R57): their words are GET's, SET's and SWAP's. -/
theorem test_decode_get0 : encode (.get0 .w8 4) = 0x00000401#32 ∧ decode 0x00000401#32 = .op (.get .w8 4 0) := by
  decide
theorem test_decode_set0 : encode (.set0 .w8 4) = 0x00000402#32 ∧ decode 0x00000402#32 = .op (.set .w8 4 0) := by
  decide
theorem test_decode_swap1 :
    encode (.swap1 .w8 0 7) = 0x01070003#32 ∧ decode 0x01070003#32 = .op (.swap .w8 0 7 1) := by decide

/-! ## Reserved words (95_test_vectors.md section 3.2), each rejected by the name of its cause (60_exceptions.md R109) -/

theorem test_reserved_op : decode 0x00000005#32 = .reserved .operationCode ∧
    decode 0x00000006#32 = .reserved .operationCode ∧ decode 0x00000007#32 = .reserved .operationCode := by decide
theorem test_reserved_rsv : decode 0x00000020#32 = .reserved .rsvNotZero ∧
    decode 0x000000E0#32 = .reserved .rsvNotZero ∧ decode 0xFFFFFFFF#32 = .reserved .rsvNotZero := by decide
theorem test_reserved_grid_width :
    decode 0x00000014#32 = .reserved .gridWidth ∧ decode 0x0000001C#32 = .reserved .gridWidth := by decide
theorem test_reserved_param : decode 0x00010000#32 = .reserved .paramNotZero ∧
    decode 0x01000001#32 = .reserved .paramNotZero ∧ decode 0x01000002#32 = .reserved .paramNotZero ∧
    decode 0x00000104#32 = .reserved .paramNotZero ∧ decode 0x0001000C#32 = .reserved .paramNotZero := by decide

/-- The worked reserved transaction, and the next one: nothing carried over. -/
theorem test_reserved_step : outputsOf (step (ports 0x00000014#32 0xDEADBEEF#64 0#64)) = some ⟨0#64, 0#16, 1#1⟩ := by
  decide
theorem test_after_reserved :
    outputsOf (step (ports 0x0000000C#32 0xDEADBEEF#64 0#64)) = some ⟨0#64, 0xBEEF#16, 0#1⟩ := by decide
theorem test_reserved_is_callers_fault :
    faultOf (checkedTransact ⟨0x00000014#32, 0#64, 0#64⟩ State.reset) = some (.illAsserted 0x00000014#32) := by decide

/-! ## Steps (95_test_vectors.md sections 2.1 to 2.6) -/

theorem test_mask_saturates : outputsOf (step (ports 0x00000900#32 0#64 0#64)) = some ⟨0xFF#64, 0#16, 0#1⟩ := by decide
theorem test_mask_full_word :
    outputsOf (step (ports 0x00004018#32 0x12#64 0x34#64)) = some ⟨0xFFFFFFFFFFFFFFFF#64, 0#16, 0#1⟩ := by decide
theorem test_get_past_top : outputsOf (step (ports 0x00050601#32 0xFF#64 0#64)) = some ⟨0x07#64, 0#16, 0#1⟩ := by decide
theorem test_get_offset_is_width :
    outputsOf (step (ports 0x00400119#32 0xFEDCBA9876543210#64 0#64)) = some ⟨0#64, 0#16, 0#1⟩ := by decide
theorem test_set_past_top :
    outputsOf (step (ports 0x001E0412#32 0x12345678#64 0x0F#64)) = some ⟨0xD2345678#64, 0#16, 0#1⟩ := by decide
theorem test_set_upper_bits_ignored :
    outputsOf (step (ports 0x00000102#32 0xFFFFFFFFFFFFFF5A#64 0xFFFFFFFFFFFFFF01#64))
      = some ⟨0x5B#64, 0#16, 0#1⟩ := by decide
theorem test_swap_middle : outputsOf (step (ports 0x03050103#32 0x2D#64 0#64)) = some ⟨0xC3#64, 0#16, 0#1⟩ := by decide
theorem test_swap_past_top : outputsOf (step (ports 0x04000603#32 0x81#64 0#64)) = some ⟨0x42#64, 0#16, 0#1⟩ := by
  decide
theorem test_grid8 :
    outputsOf (step (ports 0x00000004#32 0xFFFFFFFFFFFFFF12#64 0#64)) = some ⟨0#64, 0x0012#16, 0#1⟩ := by decide
theorem test_grid8_slots : grid8Of 0xA5#8 = ⟨⟨true, false, true, false⟩, ⟨false, true, false, true⟩⟩ := by decide
theorem test_grid16 :
    outputsOf (step (ports 0x0000000C#32 0xA5A5A5A5A5A5C3A5#64 0#64)) = some ⟨0#64, 0xC3A5#16, 0#1⟩ := by decide
theorem test_grid16_slots : grid16Of 0x1234#16 = ⟨⟨false, false, true, false⟩, ⟨true, true, false, false⟩,
    ⟨false, true, false, false⟩, ⟨true, false, false, false⟩⟩ := by decide
theorem test_get0 : outputsOf (exec (.get0 .w8 4) (ports 0#32 0xBA#64 0#64)) = some ⟨0x0A#64, 0#16, 0#1⟩ := by decide
theorem test_set0 : outputsOf (exec (.set0 .w8 4) (ports 0#32 0#64 0xFF#64)) = some ⟨0x0F#64, 0#16, 0#1⟩ := by decide
theorem test_swap1 : outputsOf (exec (.swap1 .w8 0 7) (ports 0#32 0x01#64 0#64)) = some ⟨0x80#64, 0#16, 0#1⟩ := by
  decide

/-! ## The host's functions and the caller -/

theorem test_table_word : decodeTableWord 32 0x00101012 = some (.set .w32 16 16) := by decide
theorem test_table_word_reserved : decodeTableWord 32 0x00000014 = none := by decide
theorem test_fetch_word :
    outputsOf (step (State.reset.withFetchWord 32 0x00000300)) = some ⟨0x07#64, 0#16, 0#1⟩ := by decide
/-- Line 2 of program P1: `f = SET.8 f, 0xB, 4, 4` with `f = 0x0A`. -/
theorem test_listing_line :
    nameZero (runLine ⟨0, .set .w8 4 4, some (.name 0), some (.lit 0x0B#64)⟩ ⟨[(0, .word 0x0A#64)], State.reset⟩)
      = some (.word 0xBA#64) := by decide
theorem test_listing_grid : nameZero (runLine ⟨0, .grid8, some (.lit 0x0F#64), none⟩ ⟨[], State.reset⟩)
    = some (.grid8 ⟨⟨true, true, true, true⟩, ⟨false, false, false, false⟩⟩) := by decide
theorem test_listing_unbound :
    refusalOf (runLine ⟨0, .get .w8 4 0, some (.name 7), none⟩ ⟨[], State.reset⟩) = some (.unboundName 7) := by decide
theorem test_listing_grid_operand :
    refusalOf (runLine ⟨0, .grid8, some (.name 0), none⟩ ⟨[(0, .grid8 (grid8Of 0#8))], State.reset⟩)
      = some (.operandIsGrid 0) := by decide
theorem test_listing_ill_formed :
    refusalOf (runLine ⟨0, .mask .w8 256, none, none⟩ ⟨[], State.reset⟩) = some .illFormedLine := by decide

/-! ## Witnesses: values that meet the hypotheses of the statements, at the boundaries of their clauses -/

theorem witness_DecodeAndEncodeAreInverse : Instr.wellFormed (.swap .w64 255 0 255) = true ∧
    Instr.wellFormed (.get0 .w8 255) = true ∧ decode 0xFFFFFF1B#32 = .op (.swap .w64 255 255 255) := by decide
theorem witness_OpcodeMapAgreesWithDecoder :
    (⟨"GRID16", 0x0000000C#32, 0xFFFFFFFF#32⟩ : OpcodeRow) ∈ coreRows ∧
    (⟨"SWAP1", 0x01000003#32, 0xFF0000E7#32⟩ : OpcodeRow) ∈ shortRows := by decide
theorem witness_ReservedWordsAssertIll_reserved :
    ReservedWord (ports 0x00000020#32 0#64 0#64).cmd ∧ ReservedWord 0x00000007#32 ∧ ReservedWord 0x0000001C#32 ∧
    ReservedWord 0x01000000#32 ∧ ReservedWord 0x01000002#32 ∧ ReservedWord 0x00000104#32 := by
  refine ⟨?_, ?_, ?_, ?_, ?_, ?_⟩ <;> decide
theorem witness_ReservedWordsAssertIll_defined :
    ¬ ReservedWord (ports 0x00000000#32 0#64 0#64).cmd ∧ ¬ ReservedWord 0xFFFFFF1B#32 ∧ ¬ ReservedWord 0x0000000C#32 := by
  refine ⟨?_, ?_, ?_⟩ <;> decide
theorem witness_StepRunsDecodedOperation :
    decode (ports 0x00040402#32 0x0A#64 0x0B#64).cmd = .op (.set .w8 4 4) := by decide
theorem witness_OutputsDependOnInputsOnly :
    (ports 0x0000000C#32 7#64 8#64).inputs = (⟨0x0000000C#32, 7#64, 8#64, 1#64, 2#16, 0#1⟩ : State).inputs ∧
    (ports 0x0000000C#32 7#64 8#64).outputs ≠ (⟨0x0000000C#32, 7#64, 8#64, 1#64, 2#16, 0#1⟩ : State).outputs := by
  decide
theorem witness_ServiceOrderIsInvisible :
    [(⟨4#32, 1#64, 0#64⟩ : Inputs), ⟨5#32, 2#64, 0#64⟩].Perm [⟨5#32, 2#64, 0#64⟩, ⟨4#32, 1#64, 0#64⟩] ∧
    (∃ t os, serve [⟨4#32, 1#64, 0#64⟩, ⟨5#32, 2#64, 0#64⟩] State.reset = .next (t, os)) ∧
    (∃ t os, serve [⟨5#32, 2#64, 0#64⟩, ⟨4#32, 1#64, 0#64⟩] (ports 0#32 3#64 4#64) = .next (t, os)) :=
  ⟨List.Perm.swap _ _ _, ⟨_, _, rfl⟩, ⟨_, _, rfl⟩⟩
/-- For EveryStepIsRouted and EveryStepSettles: a defined and a reserved command both step. -/
theorem witness_EveryStep :
    (∃ t, step (ports 0x00000004#32 0xFF#64 0#64) = .next t) ∧ (∃ t, step (ports 0x00000005#32 0xFF#64 0#64) = .next t) :=
  ⟨⟨_, rfl⟩, ⟨_, rfl⟩⟩
theorem witness_UpperPortBitsAreIgnored :
    Instr.usesA (.set .w8 4 0) = true ∧ Instr.usesB (.set .w8 4 0) = true ∧
    (ports 0#32 0x15A#64 0x201#64).a.toNat % 2 ^ (Instr.set .w8 4 0).width.bits
      = (ports 0#32 0x5A#64 0x01#64).a.toNat % 2 ^ (Instr.set .w8 4 0).width.bits ∧
    (ports 0#32 0x15A#64 0x201#64).b.toNat % 2 ^ (Instr.set .w8 4 0).width.bits
      = (ports 0#32 0x5A#64 0x01#64).b.toNat % 2 ^ (Instr.set .w8 4 0).width.bits := by decide
theorem witness_MaskMonotone : 3 ≤ 9 ∧ 8 ≤ 8 := by decide
theorem witness_MaskSaturates : Width.bits .w64 ≤ 64 ∧ Width.bits .w8 ≤ 255 := by decide
theorem witness_GetOffsetBeyondWidthIsZero : Width.bits .w8 ≤ 8 ∧ Width.bits .w64 ≤ 255 := by decide
/-- For GetWindowPastTop and SetWindowPastTop. -/
theorem witness_WindowPastTop :
    (7 < Width.bits .w8 ∧ Width.bits .w8 < 7 + 2) ∧ (0 < Width.bits .w64 ∧ Width.bits .w64 < 0 + 65) := by decide
/-- For GetLengthExtremes, SetLengthExtremes and SwapLengthExtremes: no width is 0, so the clauses are apart. -/
theorem witness_LengthExtremes : Width.bits .w8 ≤ 8 ∧ ¬ Width.bits .w8 ≤ 0 ∧ Width.bits .w64 ≤ 64 := by decide
theorem witness_GetIsBoundedByItsWindow : ∀ k, 4 ≤ k → k < 4 + 4 → k < Width.bits .w8 →
    (ports 0#32 0xBA#64 0#64).a.getLsbD k = (ports 0#32 0xB5#64 0#64).a.getLsbD k := by
  intro k h1 h2 _
  have : k = 4 ∨ k = 5 ∨ k = 6 ∨ k = 7 := by omega
  rcases this with rfl | rfl | rfl | rfl <;> decide
theorem witness_SetDiscardsHighValueBits :
    (ports 0#32 1#64 0x0F#64).a = (ports 0#32 1#64 0xFF#64).a ∧ ∀ k, k < min 4 (Width.bits .w8) →
      (ports 0#32 1#64 0x0F#64).b.getLsbD k = (ports 0#32 1#64 0xFF#64).b.getLsbD k := by
  refine ⟨rfl, fun k hk => ?_⟩
  have h4 : k < 4 := Nat.lt_of_lt_of_le hk (Nat.min_le_left _ _)
  have : k = 0 ∨ k = 1 ∨ k = 2 ∨ k = 3 := by omega
  rcases this with rfl | rfl | rfl | rfl <;> decide
theorem witness_SetOffsetBeyondWidthKeepsField : Width.bits .w32 ≤ 32 ∧ Width.bits .w8 ≤ 200 := by decide
theorem witness_SetThenGetRoundTrips : 4 + 4 ≤ Width.bits .w8 ∧ 0 + 64 ≤ Width.bits .w64 := by decide
theorem witness_SetDoesNotInterfere :
    (0 < Width.bits .w8 ∧ (0 < 4 ∨ 4 + 4 ≤ 0)) ∧ (0 + 4 ≤ 4 ∨ 4 + 4 ≤ 0) := by decide
theorem witness_LaterSetOverwritesEarlier : 2 + 6 ≤ Width.bits .w8 ∧ 63 + 1 ≤ Width.bits .w64 := by decide
theorem witness_SwapOfEqualRunsKeepsWord : (3 = 3 ∨ ∀ k, k < 1 →
      bitA .w8 (ports 0#32 0xA5#64 0#64) (3 + k) = bitA .w8 (ports 0#32 0xA5#64 0#64) (3 + k)) ∧
    ∀ k, k < 1 → bitA .w8 (ports 0#32 0x81#64 0#64) (0 + k) = bitA .w8 (ports 0#32 0x81#64 0#64) (7 + k) := by
  refine ⟨.inl rfl, fun k hk => ?_⟩
  have : k = 0 := by omega
  subst this; decide
/-- For CleanSwap and SwapIsAnInvolution: adjacent windows that end at the top. -/
theorem witness_CleanSwap : 0 + 4 ≤ Width.bits .w8 ∧ 4 + 4 ≤ Width.bits .w8 ∧ Apart 0 4 4 := by
  unfold Apart; decide
/-- For BatchSwapEqualsSequence and SwapPastTopExchangesWithZeros: apart, one window past the top; and `i = j`. -/
theorem witness_BatchSwapEqualsSequence : Apart 6 0 4 ∧ Width.bits .w8 < 6 + 4 ∧ (Apart 2 2 3 ∨ 2 = 2) := by
  unfold Apart; decide
theorem witness_SwapPositionBeyondWidthClears : Width.bits .w8 ≤ 8 ∧ Width.bits .w8 ≤ 200 := by decide
theorem witness_SwapOneIsSwapOfLengthOne : 0 < Width.bits .w8 ∧ 7 < Width.bits .w8 := by decide
theorem witness_ListingLineBindsItsResult :
    Line.wellFormed ⟨0, .set .w8 4 4, some (.name 1), some (.lit 3#64)⟩ = true ∧
    portValue [(1, .word 5#64)] 0#64 (some (.name 1)) = .next 5#64 ∧
    portValue [(1, .word 5#64)] 0#64 (some (.lit 3#64)) = .next 3#64 := ⟨by decide, rfl, rfl⟩
theorem witness_UnboundNameIsRefused :
    Line.wellFormed ⟨0, .set .w8 4 4, some (.name 1), some (.name 7)⟩ = true ∧
    lookupName [(1, .word 5#64)] 7 = none ∧ portValue [(1, .word 5#64)] 0#64 (some (.name 1)) = .next 5#64 ∧
    Line.wellFormed ⟨0, .get .w8 4 4, some (.name 7), none⟩ = true := ⟨by decide, by decide, rfl, by decide⟩

end Sys2Proof.Tests
end

section
/-! Proofs about one step: it is the meaning of what the command word decodes to (00_scope.md R15). -/

namespace Sys2Proof.Machine

/-- Of the two things a step can do, a word that decodes to an operation leaves the operation: `decode` has one
answer, so it is the same operation and no reserved command. -/
theorem step_eq_exec_of_decode_op {s : State} {i : Instr} (h : decode s.cmd = .op i) : step s = exec i s := by
  obtain ⟨j, hj, hstep⟩ | ⟨r, hr, -⟩ := step_cases s
  · have hji : Decoded.op j = .op i := hj.symm.trans h
    cases hji
    exact hstep
  · have hro : Decoded.reserved r = .op i := hr.symm.trans h
    cases hro

/-- Settles O7: what a step can do (`step_cases`), with the answer of the decoder known. -/
theorem stepRunsDecodedOperation : Obligations.StepRunsDecodedOperation := by
  unfold Obligations.StepRunsDecodedOperation
  intro s i h
  exact step_eq_exec_of_decode_op h

end Sys2Proof.Machine
end

section
/-! Proofs about the outputs of one transaction (10_state.md R23 to R28): which Words they depend on, and how they are
routed to `Y`, `G` and `ILL`. -/

namespace Sys2Proof.Machine

/-! ## What is read on the output ports -/

theorem outputs_driveWord_congr {s s' : State} {i : Instr} {y y' : BitVec 64} (h : y = y') :
    (s.driveWord i y).outputs = (s'.driveWord i y').outputs := by
  subst h; rfl

theorem outputs_driveGrid_congr {s s' : State} {i : Instr} {g g' : BitVec 16} (h : g = g') :
    (s.driveGrid i g).outputs = (s'.driveGrid i g').outputs := by
  subst h; rfl

/-- A result Word leaves `Y[63:W] = 0` (10_state.md R27). -/
theorem toNat_zext64_lt (w : Width) (v : Word w.bits) : (zext64 v).toNat < 2 ^ w.bits := by
  rw [toNat_zext64]
  exact v.isLt

theorem subVectorValue_lt (u : SubVector) : subVectorValue u < 16 := by
  have := Bool.toNat_le u.slot0
  have := Bool.toNat_le u.slot1
  have := Bool.toNat_le u.slot2
  have := Bool.toNat_le u.slot3
  simp only [subVectorValue]
  omega

/-- A Grid8 leaves `G[15:8] = 0` (10_state.md R26). -/
theorem toNat_portOfGrid8_lt (x : Grid8) : (portOfGrid8 x).toNat < 2 ^ 8 := by
  have := subVectorValue_lt x.v0
  have := subVectorValue_lt x.v1
  simp only [portOfGrid8, BitVec.toNat_ofNat]
  omega

/-- A grid operation at width `W` leaves `G[15:W] = 0` (10_state.md R26). -/
theorem toNat_g_lt_of_exec_grid {i : Instr} {s t : State} (hgrid : i.yieldsGrid = true)
    (h : exec i s = .next t) : t.g.toNat < 2 ^ i.width.bits := by
  cases i
  case grid8 => cases h; exact toNat_portOfGrid8_lt _
  case grid16 => cases h; exact BitVec.isLt _
  all_goals cases hgrid

/-- A Word operation drives `Y[63:W] = 0`, and a grid operation drives `Y = 0` (10_state.md R27, R28). -/
theorem toNat_y_lt_of_exec {i : Instr} {s t : State} (h : exec i s = .next t) :
    t.y.toNat < 2 ^ i.width.bits := by
  obtain ⟨-, v, hv⟩ | ⟨-, g, hg⟩ := exec_cases i s
  · cases hv.symm.trans h
    exact toNat_zext64_lt i.width v
  · cases hg.symm.trans h
    exact Nat.two_pow_pos _

/-! ## The routing invariant -/

theorem routed_driveWord {s : State} {i : Instr} {y : BitVec 64} (hi : decode s.cmd = .op i)
    (hword : i.yieldsGrid = false) (hy : y.toNat < 2 ^ i.width.bits) : Routed (s.driveWord i y) := by
  rw [Routed, driveWord_cmd, hi]
  simp [hword, hy]

theorem routed_driveGrid {s : State} {i : Instr} {g : BitVec 16} (hi : decode s.cmd = .op i)
    (hgrid : i.yieldsGrid = true) (hg : g.toNat < 2 ^ i.width.bits) : Routed (s.driveGrid i g) := by
  rw [Routed, driveGrid_cmd, hi]
  simp [hgrid, hg]

theorem routed_of_decode_reserved {s : State} {r : Reserved} (h : decode s.cmd = .reserved r) :
    Routed { s with y := 0#64, g := 0#16, ill := 1#1 } := by
  simp [Routed, h]

/-- The operation on `CMD` routes its outputs. -/
theorem routed_of_exec {i : Instr} {s t : State} (hi : decode s.cmd = .op i) (h : exec i s = .next t) :
    Routed t := by
  obtain ⟨hword, v, hv⟩ | ⟨hgrid, g, hg⟩ := exec_cases i s
  · cases hv.symm.trans h
    exact routed_driveWord hi hword (toNat_zext64_lt i.width v)
  · have hlt := toNat_g_lt_of_exec_grid hgrid h
    cases hg.symm.trans h
    exact routed_driveGrid hi hgrid hlt

/-- Settles O12: a step is the operation on `CMD` or a reserved command, and each routes its outputs. -/
theorem everyStepIsRouted : Obligations.EveryStepIsRouted := by
  unfold Obligations.EveryStepIsRouted
  intro s s' h
  obtain ⟨i, hi, hstep⟩ | ⟨r, hr, hstep⟩ := step_cases s
  · exact routed_of_exec hi (hstep.symm.trans h)
  · cases hstep.symm.trans h
    exact routed_of_decode_reserved hr

/-! ## What the outputs depend on -/

theorem wordA_eq_of_mod_eq {s s' : State} {w : Nat} (h : s.a.toNat % 2 ^ w = s'.a.toNat % 2 ^ w) :
    s.wordA w = s'.wordA w := by
  apply BitVec.eq_of_toNat_eq
  rw [toNat_wordA, toNat_wordA, h]

theorem wordB_eq_of_mod_eq {s s' : State} {w : Nat} (h : s.b.toNat % 2 ^ w = s'.b.toNat % 2 ^ w) :
    s.wordB w = s'.wordB w := by
  apply BitVec.eq_of_toNat_eq
  rw [toNat_wordB, toNat_wordB, h]

/-- The outputs of an operation are a function of the operand Words on the ports it reads (10_state.md R23, R27):
each meaning reaches `A` and `B` only through `wordA` and `wordB` at its own width. -/
theorem exec_outputs_eq_of_words_eq (i : Instr) {s s' : State}
    (hA : i.usesA = true → s.wordA i.width.bits = s'.wordA i.width.bits)
    (hB : i.usesB = true → s.wordB i.width.bits = s'.wordB i.width.bits) :
    ∃ t t', exec i s = .next t ∧ exec i s' = .next t' ∧ t.outputs = t'.outputs := by
  cases i with
  | mask w len => exact ⟨_, _, rfl, rfl, rfl⟩
  | get w len off =>
    exact ⟨_, _, rfl, rfl, outputs_driveWord_congr (congrArg (fun a => zext64 (getW a len off)) (hA rfl))⟩
  | set w len off =>
    exact ⟨_, _, rfl, rfl,
      outputs_driveWord_congr (congrArg₂ (fun a b => zext64 (setW a b len off)) (hA rfl) (hB rfl))⟩
  | swap w x y n =>
    exact ⟨_, _, rfl, rfl, outputs_driveWord_congr (congrArg (fun a => zext64 (swapW a x y n)) (hA rfl))⟩
  | grid8 =>
    exact ⟨_, _, rfl, rfl, outputs_driveGrid_congr (congrArg (fun a => portOfGrid8 (grid8Of a)) (hA rfl))⟩
  | grid16 =>
    exact ⟨_, _, rfl, rfl, outputs_driveGrid_congr (congrArg (fun a => portOfGrid16 (grid16Of a)) (hA rfl))⟩
  | get0 w len =>
    exact ⟨_, _, rfl, rfl, outputs_driveWord_congr (congrArg (fun a => zext64 (get0W a len)) (hA rfl))⟩
  | set0 w len =>
    exact ⟨_, _, rfl, rfl,
      outputs_driveWord_congr (congrArg₂ (fun a b => zext64 (set0W a b len)) (hA rfl) (hB rfl))⟩
  | swap1 w x y =>
    exact ⟨_, _, rfl, rfl, outputs_driveWord_congr (congrArg (fun a => zext64 (swap1W a x y)) (hA rfl))⟩

/-- Settles O15: ports that agree modulo `2^W` hold the same operand Words, and the outputs are a function of these. -/
theorem upperPortBitsAreIgnored : Obligations.UpperPortBitsAreIgnored := by
  unfold Obligations.UpperPortBitsAreIgnored
  intro i s s' hA hB
  obtain ⟨t, t', ht, ht', hout⟩ := exec_outputs_eq_of_words_eq i
    (fun q => wordA_eq_of_mod_eq (hA q)) (fun q => wordB_eq_of_mod_eq (hB q))
  exact ⟨t, t', ht, ht', hout, toNat_y_lt_of_exec ht⟩

/-- A word the decoder reserves leaves the reserved outputs, of the two things a step can do. -/
theorem step_eq_of_decode_reserved {s : State} {r : Reserved} (h : decode s.cmd = .reserved r) :
    step s = .next { s with y := 0#64, g := 0#16, ill := 1#1 } := by
  obtain ⟨i, hi, -⟩ | ⟨-, -, hstep⟩ := step_cases s
  · cases hi.symm.trans h
  · exact hstep

/-- Settles O10: equal inputs hold one command word, and an operation gets equal operand Words from them. -/
theorem outputsDependOnInputsOnly : Obligations.OutputsDependOnInputsOnly := by
  unfold Obligations.OutputsDependOnInputsOnly
  intro s s' h
  obtain ⟨hcmd, ha, hb⟩ : s.cmd = s'.cmd ∧ s.a = s'.a ∧ s.b = s'.b := by
    simpa only [State.inputs, Inputs.mk.injEq] using h
  cases hdec : decode s.cmd with
  | op i =>
    rw [step_eq_exec_of_decode_op hdec, step_eq_exec_of_decode_op (hcmd ▸ hdec)]
    exact exec_outputs_eq_of_words_eq i (fun _ => by rw [State.wordA, ha, State.wordA])
      (fun _ => by rw [State.wordB, hb, State.wordB])
  | reserved r =>
    exact ⟨_, _, step_eq_of_decode_reserved hdec, step_eq_of_decode_reserved (hcmd ▸ hdec), rfl⟩

end Sys2Proof.Machine
end

section
/-! Proofs about masks of different lengths at one width (40_mask.md R61, R64). -/

namespace Sys2Proof.Machine

/-- MASK drives `mask_W(len)` as a Word, whatever is on `A` and `B` (40_mask.md R62). -/
theorem drivesWord_mask {w : Width} {len : Nat} {s : State} {P : BitVec 64 → Prop}
    (h : P (zext64 (maskW w.bits len))) : DrivesWord (.mask w len) s P :=
  ⟨_, rfl, h⟩

/-- A shorter mask is contained in a longer one: bit `k` of it needs `k < len1`, so `k < len2`. -/
theorem zext64_maskW_and_of_le (w : Width) {len1 len2 : Nat} (h : len1 ≤ len2) :
    zext64 (maskW w.bits len1) &&& zext64 (maskW w.bits len2) = zext64 (maskW w.bits len1) := by
  apply BitVec.eq_of_getLsbD_eq
  intro k _
  rw [BitVec.getLsbD_and, getLsbD_zext64, getLsbD_zext64, getLsbD_maskW, getLsbD_maskW]
  by_cases hk : k < len1
  · simp [hk, Nat.lt_of_lt_of_le hk h]
  · simp [hk]

/-- Containment of the bits bounds the number. -/
theorem toNat_le_of_and_eq_left {w : Nat} {x y : BitVec w} (h : x &&& y = x) : x.toNat ≤ y.toNat :=
  calc x.toNat = x.toNat &&& y.toNat := by rw [← BitVec.toNat_and, h]
    _ ≤ y.toNat := Nat.and_le_right

/-- Settles O20: containment of the masks as sets of bits, from which the order of the numbers follows. -/
theorem maskMonotone : Obligations.MaskMonotone := by
  unfold Obligations.MaskMonotone
  intro w len1 len2 s hle
  have hand := zext64_maskW_and_of_le w hle
  exact drivesWord_mask (drivesWord_mask ⟨hand, toNat_le_of_and_eq_left hand⟩)

end Sys2Proof.Machine
end

section
/-! Proofs about transactions one after the other: repeating one changes nothing (20_memory.md R37), and the order in
which a block serves several is invisible (20_memory.md R40; 60_exceptions.md R117). -/

namespace Sys2Proof.Machine

/-! ## Repeating a transaction -/

/-- Every step answers, and leaves the inputs as the caller presents them (60_exceptions.md R111; 10_state.md R29). -/
theorem step_answers_next_keeping_inputs (s : State) : ∃ t, step s = .next t ∧ t.inputs = s.inputs := by
  obtain ⟨i, -, hstep⟩ | ⟨r, -, hstep⟩ := step_cases s
  · obtain ⟨-, v, hv⟩ | ⟨-, g, hg⟩ := exec_cases i s
    · exact ⟨_, hstep.trans hv, rfl⟩
    · exact ⟨_, hstep.trans hg, rfl⟩
  · exact ⟨_, hstep, rfl⟩

/-- The six ports are the whole state (10_state.md R18 to R24). -/
theorem eq_of_inputs_eq_of_outputs_eq {s t : State} (hin : s.inputs = t.inputs) (hout : s.outputs = t.outputs) :
    s = t := by
  cases s
  cases t
  cases hin
  cases hout
  rfl

/-- Settles O13: the second step finds the inputs of the first, so it drives the outputs that stand already. -/
theorem everyStepSettles : Obligations.EveryStepSettles := by
  unfold Obligations.EveryStepSettles
  intro s s' h
  obtain ⟨t, ht, hin⟩ := step_answers_next_keeping_inputs s
  cases ht.symm.trans h
  obtain ⟨u, hu, hu_in⟩ := step_answers_next_keeping_inputs s'
  obtain ⟨u₁, s₁, hu₁, hs₁, hout⟩ := outputsDependOnInputsOnly s' s hin
  cases hu.symm.trans hu₁
  cases h.symm.trans hs₁
  exact hu.trans (congrArg _ (eq_of_inputs_eq_of_outputs_eq hu_in hout))

/-! ## The order of service -/

/-- `o` is what the transaction of `x` gets alone, on a block right after reset. -/
def GetsAlone (x : Inputs) (o : Outputs) : Prop := ∃ u, transact x State.reset = .next u ∧ u.outputs = o

/-- `GetsAlone` on a pair of inputs and outputs, as `ServiceOrderIsInvisible` lists them. -/
def PairsAlone (x : Inputs) (p : Inputs × Outputs) : Prop := p.1 = x ∧ GetsAlone x p.2

theorem pairsAlone_rightUnique : Relator.RightUnique PairsAlone := by
  rintro x ⟨_, _⟩ ⟨_, _⟩ ⟨rfl, u, hu, rfl⟩ ⟨rfl, u', hu', rfl⟩
  cases hu.symm.trans hu'
  rfl

/-- The state a block is in when a transaction begins does not show in its outputs (10_state.md R24). -/
theorem transact_getsAlone (x : Inputs) (s : State) : ∃ t, transact x s = .next t ∧ GetsAlone x t.outputs := by
  have hin : (s.present x).inputs = (State.reset.present x).inputs := rfl
  obtain ⟨t, u, ht, hu, hout⟩ := outputsDependOnInputsOnly _ _ hin
  exact ⟨t, ht, u, hu, hout.symm⟩

theorem serve_cons_of_next {x : Inputs} {xs : List Inputs} {s t u : State} {outs : List Outputs}
    (ht : transact x s = .next t) (hu : serve xs t = .next (u, outs)) :
    serve (x :: xs) s = .next (u, t.outputs :: outs) := by
  rw [serve, ht, andThen_next, hu, andThen_next]

/-- A block in any state serves any transactions, and each gets what it gets alone (20_memory.md R40). -/
theorem serve_getsAlone (xs : List Inputs) (s : State) :
    ∃ t outs, serve xs s = .next (t, outs) ∧ List.Forall₂ GetsAlone xs outs := by
  induction xs generalizing s with
  | nil => exact ⟨s, [], rfl, .nil⟩
  | cons x xs ih =>
    obtain ⟨t, ht, halone⟩ := transact_getsAlone x s
    obtain ⟨u, outs, hu, hrest⟩ := ih t
    exact ⟨u, t.outputs :: outs, serve_cons_of_next ht hu, .cons halone hrest⟩

theorem forall₂_pairsAlone_zip {xs : List Inputs} {outs : List Outputs} (h : List.Forall₂ GetsAlone xs outs) :
    List.Forall₂ PairsAlone xs (xs.zip outs) := by
  induction h with
  | nil => exact .nil
  | cons halone _ ih => exact .cons ⟨rfl, halone⟩ ih

/-- The pairs a block serves are those of the transactions alone, whatever state it begins in. -/
theorem forall₂_pairsAlone_of_serve {xs : List Inputs} {s t : State} {outs : List Outputs}
    (h : serve xs s = .next (t, outs)) : List.Forall₂ PairsAlone xs (xs.zip outs) := by
  obtain ⟨t', outs', hserve, halone⟩ := serve_getsAlone xs s
  cases hserve.symm.trans h
  exact forall₂_pairsAlone_zip halone

/-- Settles O11: each transaction gets what it gets alone, which is unique, so a permutation of the transactions
permutes the pairs. -/
theorem serviceOrderIsInvisible : Obligations.ServiceOrderIsInvisible := by
  unfold Obligations.ServiceOrderIsInvisible
  refine ⟨serve_getsAlone, ?_⟩
  intro xs ys s s' t t' os os' hperm hserve hserve'
  exact List.rel_perm_imp pairsAlone_rightUnique (forall₂_pairsAlone_of_serve hserve)
    (forall₂_pairsAlone_of_serve hserve') hperm

end Sys2Proof.Machine
end

section
/-! Proofs about the command word: decoding and encoding are inverse (30_encoding.md R51, R56, R60). -/

namespace Sys2Proof

/-! ## A word is its fields -/

/-- An encoded word with `RSV = 0` is determined by its fields, and determines them (30_encoding.md R44). -/
theorem enc_eq_iff {op p0 p1 p2 : Nat} {w : Width} {c : BitVec 32} (hop : op < 8) (h0 : p0 < 256) (h1 : p1 < 256)
    (h2 : p2 < 256) : enc op w p0 p1 p2 = c ↔
      fieldRsv c = 0 ∧ fieldOp c = op ∧ fieldWidth c = w ∧ fieldP0 c = p0 ∧ fieldP1 c = p1 ∧ fieldP2 c = p2 := by
  constructor
  · rintro rfl
    exact ⟨fieldRsv_enc w hop h0 h1 h2, fieldOp_enc w hop h0 h1 h2, fieldWidth_enc w hop h0 h1 h2,
      fieldP0_enc w hop h0 h1 h2, fieldP1_enc w hop h0 h1 h2, fieldP2_enc w hop h0 h1 h2⟩
  · rintro ⟨hrsv, rfl, rfl, rfl, rfl, rfl⟩
    obtain ⟨-, hwsel, -⟩ := field_bounds c
    apply BitVec.eq_of_toNat_eq
    rw [toNat_enc _ hop h0 h1 h2, toNat_eq_fields c, hrsv, fieldWidth, wsel_ofWsel hwsel, Nat.mul_zero, Nat.add_zero]

/-! ## The decoder's arms -/

/-- The six arms of 30_encoding.md R51 that give an operation, in both directions. -/
theorem decode_eq_op_iff {c : BitVec 32} {i : Instr} : decode c = .op i ↔
    fieldRsv c = 0 ∧
    ((fieldOp c = 0 ∧ fieldP1 c = 0 ∧ fieldP2 c = 0 ∧ i = .mask (fieldWidth c) (fieldP0 c)) ∨
     (fieldOp c = 1 ∧ fieldP2 c = 0 ∧ i = .get (fieldWidth c) (fieldP0 c) (fieldP1 c)) ∨
     (fieldOp c = 2 ∧ fieldP2 c = 0 ∧ i = .set (fieldWidth c) (fieldP0 c) (fieldP1 c)) ∨
     (fieldOp c = 3 ∧ i = .swap (fieldWidth c) (fieldP0 c) (fieldP1 c) (fieldP2 c)) ∨
     (fieldOp c = 4 ∧ fieldWsel c = 0 ∧ fieldP0 c = 0 ∧ fieldP1 c = 0 ∧ fieldP2 c = 0 ∧ i = .grid8) ∨
     (fieldOp c = 4 ∧ fieldWsel c = 1 ∧ fieldP0 c = 0 ∧ fieldP1 c = 0 ∧ fieldP2 c = 0 ∧ i = .grid16)) := by
  refine ⟨decode_op_cases, ?_⟩
  rintro ⟨hrsv, ⟨hop, h1, h2, rfl⟩ | ⟨hop, h2, rfl⟩ | ⟨hop, h2, rfl⟩ | ⟨hop, rfl⟩ | ⟨hop, hw, h0, h1, h2, rfl⟩ |
    ⟨hop, hw, h0, h1, h2, rfl⟩⟩ <;> simp [decode, *]

section
variable {p q r : Nat} (w : Width) (hp : p < 256) (hq : q < 256) (hr : r < 256)
include hp

theorem decode_enc_mask : decode (enc 0 w p 0 0) = .op (.mask w p) := by
  obtain ⟨hrsv, hop, hw, h0, h1, h2⟩ := (enc_eq_iff (by decide) hp (by decide) (by decide)).1 (rfl : enc 0 w p 0 0 = _)
  exact decode_eq_op_iff.2 ⟨hrsv, .inl ⟨hop, h1, h2, by rw [hw, h0]⟩⟩

include hq

theorem decode_enc_get : decode (enc 1 w p q 0) = .op (.get w p q) := by
  obtain ⟨hrsv, hop, hw, h0, h1, h2⟩ := (enc_eq_iff (by decide) hp hq (by decide)).1 (rfl : enc 1 w p q 0 = _)
  exact decode_eq_op_iff.2 ⟨hrsv, .inr (.inl ⟨hop, h2, by rw [hw, h0, h1]⟩)⟩

theorem decode_enc_set : decode (enc 2 w p q 0) = .op (.set w p q) := by
  obtain ⟨hrsv, hop, hw, h0, h1, h2⟩ := (enc_eq_iff (by decide) hp hq (by decide)).1 (rfl : enc 2 w p q 0 = _)
  exact decode_eq_op_iff.2 ⟨hrsv, .inr (.inr (.inl ⟨hop, h2, by rw [hw, h0, h1]⟩))⟩

include hr

theorem decode_enc_swap : decode (enc 3 w p q r) = .op (.swap w p q r) := by
  obtain ⟨hrsv, hop, hw, h0, h1, h2⟩ := (enc_eq_iff (by decide) hp hq hr).1 (rfl : enc 3 w p q r = _)
  exact decode_eq_op_iff.2 ⟨hrsv, .inr (.inr (.inr (.inl ⟨hop, by rw [hw, h0, h1, h2]⟩)))⟩

end

/-! ## Decode after encode -/

/-- Every operation, with parameters of any size, decodes from its word to its expansion with the parameters the word
presents (30_encoding.md R57, R58). -/
theorem decode_encode (i : Instr) : decode (encode i) = .op (i.expand.mapParams presented) := by
  cases i with
  | mask w len => exact decode_enc_mask w (presented_lt len)
  | get w len off => exact decode_enc_get w (presented_lt len) (presented_lt off)
  | set w len off => exact decode_enc_set w (presented_lt len) (presented_lt off)
  | swap w x y n => exact decode_enc_swap w (presented_lt x) (presented_lt y) (presented_lt n)
  | grid8 => rfl
  | grid16 => rfl
  | get0 w len => exact decode_enc_get w (presented_lt len) (presented_lt 0)
  | set0 w len => exact decode_enc_set w (presented_lt len) (presented_lt 0)
  | swap1 w x y => exact decode_enc_swap w (presented_lt x) (presented_lt y) (presented_lt 1)

/-- A well-formed operation is presented as it is: `min(p, 255)` changes none of its parameters. -/
theorem mapParams_presented_of_wellFormed {i : Instr} (h : i.wellFormed = true) : i.mapParams presented = i := by
  cases i <;> simp_all [Instr.wellFormed, Instr.mapParams, presented_of_fits]

theorem wellFormed_expand {i : Instr} (h : i.wellFormed = true) : i.expand.wellFormed = true := by
  cases i with
  | get0 w len => exact Bool.and_eq_true_iff.2 ⟨h, rfl⟩
  | set0 w len => exact Bool.and_eq_true_iff.2 ⟨h, rfl⟩
  | swap1 w x y => exact Bool.and_eq_true_iff.2 ⟨h, rfl⟩
  | _ => exact h

theorem decode_encode_of_wellFormed {i : Instr} (h : i.wellFormed = true) : decode (encode i) = .op i.expand := by
  rw [decode_encode, mapParams_presented_of_wellFormed (wellFormed_expand h)]

/-! ## Encode after decode -/

theorem paramFits_of_lt {p : Nat} (h : p < 256) : paramFits p = true := (paramFits_iff p).2 (Nat.le_of_lt_succ h)

theorem presented_of_lt {p : Nat} (h : p < 256) : presented p = p := presented_of_fits (paramFits_of_lt h)

/-- What is decoded has parameters of 8 bits and is no short form (30_encoding.md R55, R57). -/
theorem wellFormed_and_expand_eq_of_decode {c : BitVec 32} {i : Instr} (h : decode c = .op i) :
    i.wellFormed = true ∧ i.expand = i := by
  obtain ⟨-, -, -, h0, h1, h2⟩ := field_bounds c
  obtain ⟨-, ⟨-, -, -, rfl⟩ | ⟨-, -, rfl⟩ | ⟨-, -, rfl⟩ | ⟨-, rfl⟩ | ⟨-, -, -, -, -, rfl⟩ | ⟨-, -, -, -, -, rfl⟩⟩ :=
    decode_op_cases h <;>
  simp [Instr.wellFormed, Instr.expand, paramFits_of_lt, *]

theorem encode_of_decode {c : BitVec 32} {i : Instr} (h : decode c = .op i) : encode i = c := by
  obtain ⟨-, -, -, h0, h1, h2⟩ := field_bounds c
  obtain ⟨hrsv, ⟨hop, hp1, hp2, rfl⟩ | ⟨hop, hp2, rfl⟩ | ⟨hop, hp2, rfl⟩ | ⟨hop, rfl⟩ | ⟨hop, hw, hp0, hp1, hp2, rfl⟩ |
    ⟨hop, hw, hp0, hp1, hp2, rfl⟩⟩ := decode_op_cases h <;>
  simp [encode, presented_of_lt, enc_eq_iff, Width.ofWsel, fieldWidth, *]

/-- Settles O3: `decode_encode` on well-formed operations, and the decoder's arms read backwards. -/
theorem decodeAndEncodeAreInverse : Obligations.DecodeAndEncodeAreInverse := by
  unfold Obligations.DecodeAndEncodeAreInverse
  refine ⟨fun i hi => decode_encode_of_wellFormed hi, fun c i h => ⟨encode_of_decode h, ?_⟩, by decide, by decide⟩
  exact wellFormed_and_expand_eq_of_decode h

/-! ## Which words are defined -/

theorem definedCommand_iff (c : BitVec 32) : definedCommand c = true ↔ ∃ i, decode c = .op i := by
  unfold definedCommand
  cases decode c <;> simp

theorem definedCommand_encode (i : Instr) : definedCommand (encode i) = true :=
  (definedCommand_iff _).2 ⟨_, decode_encode i⟩

/-- A bit field of the command word is the number its slice spells (00_scope.md R7). -/
theorem toNat_extractLsb'_eq_slice (c : BitVec 32) (lo n : Nat) :
    (c.extractLsb' lo (n + 1)).toNat = slice c (lo + n) lo := by
  simp [slice, BitVec.extractLsb'_toNat, Nat.shiftRight_eq_div_pow]

/-- Settles O1: `WSEL` is below 4, so it is the code of the width it selects; an encoded word is always defined. -/
theorem widthIsEightTimesTwoToWsel : Obligations.WidthIsEightTimesTwoToWsel := by
  unfold Obligations.WidthIsEightTimesTwoToWsel
  refine ⟨fun c => ?_, fun w p q r => ⟨definedCommand_encode _, definedCommand_encode _, definedCommand_encode _,
    definedCommand_encode _⟩⟩
  obtain ⟨-, hwsel, -⟩ := field_bounds c
  rw [toNat_extractLsb'_eq_slice c 3 1, Width.bits, fieldWidth, wsel_ofWsel hwsel, fieldWsel]

end Sys2Proof
end

section
/-! Proofs about the opcode map (30_encoding.md R55): its rows as conditions on the fields of a command word. -/

namespace Sys2Proof

/-! ## Match and mask, field by field -/

theorem slice_and (c d : BitVec 32) (hi lo : Nat) : slice (c &&& d) hi lo = slice c hi lo &&& slice d hi lo := by
  simp only [slice, BitVec.toNat_and, Nat.and_div_two_pow, Nat.and_mod_two_pow]

/-- Two command words are equal iff their six fields are (30_encoding.md R44). -/
theorem eq_iff_fields_eq (c d : BitVec 32) : c = d ↔
    fieldRsv c = fieldRsv d ∧ fieldOp c = fieldOp d ∧ fieldWsel c = fieldWsel d ∧ fieldP0 c = fieldP0 d ∧
      fieldP1 c = fieldP1 d ∧ fieldP2 c = fieldP2 d := by
  constructor
  · rintro rfl
    exact ⟨rfl, rfl, rfl, rfl, rfl, rfl⟩
  · rintro ⟨hrsv, hop, hw, h0, h1, h2⟩
    apply BitVec.eq_of_toNat_eq
    rw [toNat_eq_fields c, toNat_eq_fields d, hop, hw, hrsv, h0, h1, h2]

/-- A row selects a word iff it matches on every field. -/
theorem selects_iff (name : String) (p m c : BitVec 32) : OpcodeRow.selects ⟨name, p, m⟩ c = true ↔
    fieldRsv c &&& fieldRsv m = fieldRsv p ∧ fieldOp c &&& fieldOp m = fieldOp p ∧
    fieldWsel c &&& fieldWsel m = fieldWsel p ∧ fieldP0 c &&& fieldP0 m = fieldP0 p ∧
    fieldP1 c &&& fieldP1 m = fieldP1 p ∧ fieldP2 c &&& fieldP2 m = fieldP2 p := by
  rw [OpcodeRow.selects, beq_iff_eq, eq_iff_fields_eq]
  simp only [fieldOp, fieldWsel, fieldRsv, fieldP0, fieldP1, fieldP2, slice_and]

/-- A field of a row's constant. -/
@[simp] theorem slice_ofNat (n hi lo : Nat) :
    slice (BitVec.ofNat 32 n) hi lo = n % 2 ^ 32 / 2 ^ lo % 2 ^ (hi - lo + 1) := rfl

/-- A mask field of all ones keeps the field. -/
@[simp] theorem slice_and_ones {hi lo m : Nat} (c : BitVec 32) (h : m = 2 ^ (hi - lo + 1) - 1) :
    slice c hi lo &&& m = slice c hi lo := by
  rw [h, Nat.and_two_pow_sub_one_eq_mod, slice, Nat.mod_mod]

/-! ## The core rows -/

/-- The operations of a mnemonic are an arm of the decoder (30_encoding.md R51). -/
theorem exists_decode_mnemonic_iff (c : BitVec 32) (m : String) :
    (∃ i, decode c = .op i ∧ i.mnemonic = m) ↔ fieldRsv c = 0 ∧
      ((fieldOp c = 0 ∧ fieldP1 c = 0 ∧ fieldP2 c = 0 ∧ "MASK" = m) ∨
       (fieldOp c = 1 ∧ fieldP2 c = 0 ∧ "GET" = m) ∨
       (fieldOp c = 2 ∧ fieldP2 c = 0 ∧ "SET" = m) ∨
       (fieldOp c = 3 ∧ "SWAP" = m) ∨
       (fieldOp c = 4 ∧ fieldWsel c = 0 ∧ fieldP0 c = 0 ∧ fieldP1 c = 0 ∧ fieldP2 c = 0 ∧ "GRID8" = m) ∨
       (fieldOp c = 4 ∧ fieldWsel c = 1 ∧ fieldP0 c = 0 ∧ fieldP1 c = 0 ∧ fieldP2 c = 0 ∧ "GRID16" = m)) := by
  simp only [decode_eq_op_iff, and_assoc, or_and_right, exists_and_left, exists_or, exists_eq_left, Instr.mnemonic]

/-- Each core row asks of the fields what its arm of the decoder does. -/
theorem coreRow_selects_iff {r : OpcodeRow} (hr : r ∈ coreRows) (c : BitVec 32) :
    r.selects c = true ↔ ∃ i, decode c = .op i ∧ i.mnemonic = r.mnemonic := by
  rw [exists_decode_mnemonic_iff]
  simp only [coreRows, List.mem_cons, List.not_mem_nil, or_false] at hr
  obtain rfl | rfl | rfl | rfl | rfl | rfl := hr <;> rw [selects_iff] <;>
    simp [fieldOp, fieldWsel, fieldRsv, fieldP0, fieldP1, fieldP2]

/-- The decoder gives a word one mnemonic. -/
theorem mnemonic_eq_of_selects {r q : OpcodeRow} (hr : r ∈ coreRows) (hq : q ∈ coreRows) {c : BitVec 32}
    (hrc : r.selects c = true) (hqc : q.selects c = true) : r.mnemonic = q.mnemonic := by
  obtain ⟨i, hi, hri⟩ := (coreRow_selects_iff hr c).1 hrc
  obtain ⟨j, hj, hqj⟩ := (coreRow_selects_iff hq c).1 hqc
  cases hi.symm.trans hj
  exact hri.symm.trans hqj

theorem coreRows_mnemonics_distinct : coreRows.Pairwise fun r q => r.mnemonic ≠ q.mnemonic := by decide

/-! ## The short rows -/

/-- The words of the well-formed short forms, by mnemonic (30_encoding.md R57). -/
theorem exists_shortForm_encode_iff {m : String} (hm : m ∈ shortRows.map OpcodeRow.mnemonic) (c : BitVec 32) :
    (∃ i, i.wellFormed = true ∧ i.mnemonic = m ∧ encode i = c) ↔ fieldRsv c = 0 ∧
      ((fieldOp c = 1 ∧ fieldP1 c = 0 ∧ fieldP2 c = 0 ∧ "GET0" = m) ∨
       (fieldOp c = 2 ∧ fieldP1 c = 0 ∧ fieldP2 c = 0 ∧ "SET0" = m) ∨
       (fieldOp c = 3 ∧ fieldP2 c = 1 ∧ "SWAP1" = m)) := by
  constructor
  · rintro ⟨i, -, rfl, hc⟩
    cases i with
    | get0 w len =>
      obtain ⟨hrsv, hop, -, -, h1, h2⟩ := (enc_eq_iff (by decide) (presented_lt len) (by decide) (by decide)).1 hc
      exact ⟨hrsv, .inl ⟨hop, h1, h2, rfl⟩⟩
    | set0 w len =>
      obtain ⟨hrsv, hop, -, -, h1, h2⟩ := (enc_eq_iff (by decide) (presented_lt len) (by decide) (by decide)).1 hc
      exact ⟨hrsv, .inr (.inl ⟨hop, h1, h2, rfl⟩)⟩
    | swap1 w x y =>
      obtain ⟨hrsv, hop, -, -, -, h2⟩ := (enc_eq_iff (by decide) (presented_lt x) (presented_lt y) (by decide)).1 hc
      exact ⟨hrsv, .inr (.inr ⟨hop, h2, rfl⟩)⟩
    | _ => simp [shortRows, Instr.mnemonic] at hm
  · obtain ⟨-, -, -, h0, h1, -⟩ := field_bounds c
    rintro ⟨hrsv, ⟨hop, hp1, hp2, rfl⟩ | ⟨hop, hp1, hp2, rfl⟩ | ⟨hop, hp2, rfl⟩⟩
    · refine ⟨.get0 (fieldWidth c) (fieldP0 c), paramFits_of_lt h0, rfl, ?_⟩
      simp [encode, presented_of_lt, enc_eq_iff, *]
    · refine ⟨.set0 (fieldWidth c) (fieldP0 c), paramFits_of_lt h0, rfl, ?_⟩
      simp [encode, presented_of_lt, enc_eq_iff, *]
    · refine ⟨.swap1 (fieldWidth c) (fieldP0 c) (fieldP1 c), ?_, rfl, ?_⟩
      · exact Bool.and_eq_true_iff.2 ⟨paramFits_of_lt h0, paramFits_of_lt h1⟩
      · simp [encode, presented_of_lt, enc_eq_iff, *]

/-- Each short row asks of the fields what the words of its short form spell. -/
theorem shortRow_selects_iff {r : OpcodeRow} (hr : r ∈ shortRows) (c : BitVec 32) :
    r.selects c = true ↔ ∃ i, i.wellFormed = true ∧ i.mnemonic = r.mnemonic ∧ encode i = c := by
  rw [exists_shortForm_encode_iff (List.mem_map_of_mem hr)]
  simp only [shortRows, List.mem_cons, List.not_mem_nil, or_false] at hr
  obtain rfl | rfl | rfl := hr <;> rw [selects_iff] <;> simp [fieldOp, fieldWsel, fieldRsv, fieldP0, fieldP1, fieldP2]

/-- Settles O4: the rows and the decoder compared field by field; rows that share a word share a mnemonic. -/
theorem opcodeMapAgreesWithDecoder : Obligations.OpcodeMapAgreesWithDecoder := by
  unfold Obligations.OpcodeMapAgreesWithDecoder
  refine ⟨fun r hr c => coreRow_selects_iff hr c, ?_, fun r hr c => shortRow_selects_iff hr c⟩
  exact coreRows_mnemonics_distinct.imp_of_mem fun hr hq hne c ⟨hrc, hqc⟩ => hne (mnemonic_eq_of_selects hr hq hrc hqc)

end Sys2Proof
end

section
/-! Proofs about the reserved words (30_encoding.md R52) and the number of the others (R51). -/

namespace Sys2Proof

open Machine

/-! ## Reserved words, on bits and on fields -/

/-- The fields of a word some arm of the decoder gives an operation (30_encoding.md R51). -/
theorem definedCommand_iff_fields (c : BitVec 32) : definedCommand c = true ↔ fieldRsv c = 0 ∧
    ((fieldOp c = 0 ∧ fieldP1 c = 0 ∧ fieldP2 c = 0) ∨ (fieldOp c = 1 ∧ fieldP2 c = 0) ∨
     (fieldOp c = 2 ∧ fieldP2 c = 0) ∨ fieldOp c = 3 ∨
     (fieldOp c = 4 ∧ fieldWsel c = 0 ∧ fieldP0 c = 0 ∧ fieldP1 c = 0 ∧ fieldP2 c = 0) ∨
     (fieldOp c = 4 ∧ fieldWsel c = 1 ∧ fieldP0 c = 0 ∧ fieldP1 c = 0 ∧ fieldP2 c = 0)) := by
  simp only [definedCommand_iff, decode_eq_op_iff, exists_and_left, exists_or, exists_eq, and_true]

theorem extractLsb'_eq_iff_slice (c : BitVec 32) (lo n : Nat) (v : BitVec (n + 1)) :
    c.extractLsb' lo (n + 1) = v ↔ slice c (lo + n) lo = v.toNat := by
  rw [← BitVec.toNat_inj, toNat_extractLsb'_eq_slice]

/-- R52's conditions on the bits of `CMD` are conditions on its fields. -/
theorem reservedWord_iff_fields (c : BitVec 32) : ReservedWord c ↔
    fieldRsv c ≠ 0 ∨ (fieldOp c = 5 ∨ fieldOp c = 6 ∨ fieldOp c = 7) ∨
    (fieldOp c = 4 ∧ (fieldWsel c = 2 ∨ fieldWsel c = 3)) ∨
    (fieldOp c = 0 ∧ (fieldP1 c ≠ 0 ∨ fieldP2 c ≠ 0)) ∨
    ((fieldOp c = 1 ∨ fieldOp c = 2) ∧ fieldP2 c ≠ 0) ∨
    (fieldOp c = 4 ∧ (fieldP0 c ≠ 0 ∨ fieldP1 c ≠ 0 ∨ fieldP2 c ≠ 0)) := by
  simp only [ReservedWord, extractLsb'_eq_iff_slice c 0 2, extractLsb'_eq_iff_slice c 3 1, extractLsb'_eq_iff_slice c 5 2,
    extractLsb'_eq_iff_slice c 8 7, extractLsb'_eq_iff_slice c 16 7, extractLsb'_eq_iff_slice c 24 7, ne_eq]
  rfl

/-- R52 lists exactly the words that no arm of R51 takes. -/
theorem reservedWord_iff_not_defined (c : BitVec 32) : ReservedWord c ↔ definedCommand c = false := by
  obtain ⟨hop, hwsel, -⟩ := field_bounds c
  rw [← Bool.not_eq_true, definedCommand_iff_fields, reservedWord_iff_fields]
  omega

theorem exists_reserved_of_not_defined {c : BitVec 32} (h : definedCommand c = false) :
    ∃ r, decode c = .reserved r := by
  cases hd : decode c with
  | op i => simp [definedCommand, hd] at h
  | reserved r => exact ⟨r, rfl⟩

/-! ## The caller's checked transaction -/

/-- Presenting what the ports hold is a step. -/
theorem transact_inputs (s : State) : transact s.inputs s = step s := rfl

theorem checkedTransact_of_ill {x : Inputs} {s t : State} (h : transact x s = .next t) (hill : t.ill = 1#1) :
    checkedTransact x s = .fault (.illAsserted x.cmd) := by
  rw [checkedTransact, h, andThen_next, if_pos hill]

theorem checkedTransact_of_not_ill {x : Inputs} {s t : State} (h : transact x s = .next t) (hill : t.ill = 0#1) :
    checkedTransact x s = .next t := by
  rw [checkedTransact, h, andThen_next, if_neg (by rw [hill]; decide)]

/-- An operation never asserts `ILL` (10_state.md R28). -/
theorem exec_answers_next_without_ill (i : Instr) (s : State) : ∃ t, exec i s = .next t ∧ t.ill = 0#1 := by
  obtain ⟨-, v, hv⟩ | ⟨-, g, hg⟩ := exec_cases i s
  · exact ⟨_, hv, rfl⟩
  · exact ⟨_, hg, rfl⟩

/-- Settles O5: R52's words are those the decoder reserves; `step_cases` says what the block does with each kind. -/
theorem reservedWordsAssertIll : Obligations.ReservedWordsAssertIll := by
  unfold Obligations.ReservedWordsAssertIll
  intro s
  rw [reservedWord_iff_not_defined, Bool.not_eq_false]
  constructor
  · intro h
    obtain ⟨r, hr⟩ := exists_reserved_of_not_defined h
    have hstep := step_eq_of_decode_reserved hr
    exact ⟨h, hstep, checkedTransact_of_ill ((transact_inputs s).trans hstep) rfl⟩
  · intro h
    obtain ⟨i, hi⟩ := (definedCommand_iff _).1 h
    obtain ⟨t, ht, hill⟩ := exec_answers_next_without_ill i s
    have hstep := (step_eq_exec_of_decode_op hi).trans ht
    exact ⟨h, t, hstep, hill, checkedTransact_of_not_ill ((transact_inputs s).trans hstep) hill⟩

/-! ## Counting the defined words -/

/-- The parameters of the core operations, arm by arm: a width and the parameter fields, or nothing (the grids). -/
abbrev CoreParams : Type :=
  (Fin 4 × Fin 256) ⊕ (Fin 4 × Fin 256 × Fin 256) ⊕ (Fin 4 × Fin 256 × Fin 256) ⊕
    (Fin 4 × Fin 256 × Fin 256 × Fin 256) ⊕ Unit ⊕ Unit

/-- The core operation with the given parameters. -/
def CoreParams.instr : CoreParams → Instr
  | .inl (w, p) => .mask (.ofWsel w) p
  | .inr (.inl (w, p, q)) => .get (.ofWsel w) p q
  | .inr (.inr (.inl (w, p, q))) => .set (.ofWsel w) p q
  | .inr (.inr (.inr (.inl (w, p, q, r)))) => .swap (.ofWsel w) p q r
  | .inr (.inr (.inr (.inr (.inl ())))) => .grid8
  | .inr (.inr (.inr (.inr (.inr ())))) => .grid16

/-- The parameters of an operation as `CoreParams.instr` takes them; a short form has those of its expansion. -/
def CoreParams.ofInstr : Instr → CoreParams
  | .mask w p => .inl (Fin.ofNat 4 w.wsel, Fin.ofNat 256 p)
  | .get w p q => .inr (.inl (Fin.ofNat 4 w.wsel, Fin.ofNat 256 p, Fin.ofNat 256 q))
  | .set w p q => .inr (.inr (.inl (Fin.ofNat 4 w.wsel, Fin.ofNat 256 p, Fin.ofNat 256 q)))
  | .swap w p q r =>
    .inr (.inr (.inr (.inl (Fin.ofNat 4 w.wsel, Fin.ofNat 256 p, Fin.ofNat 256 q, Fin.ofNat 256 r))))
  | .grid8 => .inr (.inr (.inr (.inr (.inl ()))))
  | .grid16 => .inr (.inr (.inr (.inr (.inr ()))))
  | .get0 w p => .inr (.inl (Fin.ofNat 4 w.wsel, Fin.ofNat 256 p, 0))
  | .set0 w p => .inr (.inr (.inl (Fin.ofNat 4 w.wsel, Fin.ofNat 256 p, 0)))
  | .swap1 w p q => .inr (.inr (.inr (.inl (Fin.ofNat 4 w.wsel, Fin.ofNat 256 p, Fin.ofNat 256 q, 1))))

theorem CoreParams.ofInstr_instr : Function.LeftInverse CoreParams.ofInstr CoreParams.instr := by
  rintro (⟨w, p⟩ | ⟨w, p, q⟩ | ⟨w, p, q⟩ | ⟨w, p, q, r⟩ | ⟨⟩ | ⟨⟩) <;>
    simp [CoreParams.instr, CoreParams.ofInstr, wsel_ofWsel]

/-- A core operation decodes from its own word. -/
theorem CoreParams.decode_encode_instr (x : CoreParams) : decode (encode x.instr) = .op x.instr := by
  have fits : ∀ p : Fin 256, paramFits p = true := fun p => paramFits_of_lt p.isLt
  obtain ⟨hwf, hexpand⟩ : x.instr.wellFormed = true ∧ x.instr.expand = x.instr := by
    obtain ⟨w, p⟩ | ⟨w, p, q⟩ | ⟨w, p, q⟩ | ⟨w, p, q, r⟩ | ⟨⟩ | ⟨⟩ := x <;>
      simp [CoreParams.instr, Instr.wellFormed, Instr.expand, fits]
  rw [decode_encode_of_wellFormed hwf, hexpand]

theorem CoreParams.encode_instr_injective : Function.Injective fun x : CoreParams => encode x.instr := by
  intro x y h
  have hop : Decoded.op x.instr = .op y.instr := by
    rw [← decode_encode_instr x, ← decode_encode_instr y]
    exact congrArg decode h
  exact ofInstr_instr.injective (Decoded.op.inj hop)

/-- The decoder reads nothing but core operations. -/
theorem CoreParams.exists_instr_eq_of_decode {c : BitVec 32} {i : Instr} (h : decode c = .op i) :
    ∃ x : CoreParams, x.instr = i := by
  obtain ⟨-, hw, -, h0, h1, h2⟩ := field_bounds c
  obtain ⟨-, ⟨-, -, -, rfl⟩ | ⟨-, -, rfl⟩ | ⟨-, -, rfl⟩ | ⟨-, rfl⟩ | ⟨-, -, -, -, -, rfl⟩ | ⟨-, -, -, -, -, rfl⟩⟩ :=
    decode_op_cases h
  · exact ⟨.inl (⟨_, hw⟩, ⟨_, h0⟩), rfl⟩
  · exact ⟨.inr (.inl (⟨_, hw⟩, ⟨_, h0⟩, ⟨_, h1⟩)), rfl⟩
  · exact ⟨.inr (.inr (.inl (⟨_, hw⟩, ⟨_, h0⟩, ⟨_, h1⟩))), rfl⟩
  · exact ⟨.inr (.inr (.inr (.inl (⟨_, hw⟩, ⟨_, h0⟩, ⟨_, h1⟩, ⟨_, h2⟩)))), rfl⟩
  · exact ⟨.inr (.inr (.inr (.inr (.inl ())))), rfl⟩
  · exact ⟨.inr (.inr (.inr (.inr (.inr ())))), rfl⟩

/-- The defined words are exactly the words of the core operations. -/
theorem definedCommand_iff_mem_range (c : BitVec 32) :
    definedCommand c = true ↔ c ∈ Set.range fun x : CoreParams => encode x.instr := by
  rw [definedCommand_iff]
  constructor
  · rintro ⟨i, hi⟩
    obtain ⟨x, rfl⟩ := CoreParams.exists_instr_eq_of_decode hi
    exact ⟨x, encode_of_decode hi⟩
  · rintro ⟨x, rfl⟩
    exact ⟨_, x.decode_encode_instr⟩

theorem card_coreParams : Nat.card CoreParams = 67634178 := by
  simp

/-- Settles O6: each core operation has a word of its own, so the words are counted by their parameters. -/
theorem countOfLegalCommands : Obligations.CountOfLegalCommands := by
  unfold Obligations.CountOfLegalCommands
  calc Nat.card { c : BitVec 32 // definedCommand c = true }
      = Nat.card (Set.range fun x : CoreParams => encode x.instr) :=
        Nat.card_congr (Equiv.subtypeEquivRight definedCommand_iff_mem_range)
    _ = Nat.card CoreParams := Nat.card_range_of_injective CoreParams.encode_instr_injective
    _ = 67634178 := card_coreParams

end Sys2Proof
end

section
/-! Proofs about the numeric parameters of an operation: its meaning depends on each only up to the width
(30_encoding.md R48), so the clamped command word runs the operation itself (R58). -/

namespace Sys2Proof.Machine

/-! ## The function units, up to the width -/

section
variable {w : Nat}

/-- The two values of a parameter are the same, or both are at or beyond the width. -/
theorem eq_or_le_of_min_eq {p q : Nat} (h : min p w = min q w) : p = q ∨ (w ≤ p ∧ w ≤ q) := by omega

theorem maskW_congr {len len' : Nat} (h : min len w = min len' w) : maskW w len = maskW w len' := by
  obtain rfl | ⟨hlen, hlen'⟩ := eq_or_le_of_min_eq h
  · rfl
  · rw [maskW, maskW, if_pos hlen, if_pos hlen']

theorem shrW_eq_zero {s : Nat} (v : Word w) (h : w ≤ s) : shrW v s = 0#w := by
  apply BitVec.eq_of_getLsbD_eq
  intro k _
  rw [getLsbD_shrW, BitVec.getLsbD_of_ge v (s + k) (by omega), BitVec.getLsbD_zero]

theorem shlW_eq_zero {s : Nat} (v : Word w) (h : w ≤ s) : shlW v s = 0#w := by
  apply BitVec.eq_of_getLsbD_eq
  intro k hk
  simp [show ¬ s ≤ k by omega]

theorem shrW_congr {s s' : Nat} (v : Word w) (h : min s w = min s' w) : shrW v s = shrW v s' := by
  obtain rfl | ⟨hs, hs'⟩ := eq_or_le_of_min_eq h
  · rfl
  · rw [shrW_eq_zero v hs, shrW_eq_zero v hs']

theorem shlW_congr {s s' : Nat} (v : Word w) (h : min s w = min s' w) : shlW v s = shlW v s' := by
  obtain rfl | ⟨hs, hs'⟩ := eq_or_le_of_min_eq h
  · rfl
  · rw [shlW_eq_zero v hs, shlW_eq_zero v hs']

theorem getW_congr {len len' off off' : Nat} (f : Word w) (hlen : min len w = min len' w)
    (hoff : min off w = min off' w) : getW f len off = getW f len' off' := by
  rw [getW, getW, shrW_congr f hoff, maskW_congr hlen]

theorem get0W_congr {len len' : Nat} (f : Word w) (hlen : min len w = min len' w) : get0W f len = get0W f len' := by
  rw [get0W, get0W, maskW_congr hlen]

theorem setW_congr {len len' off off' : Nat} (f v : Word w) (hlen : min len w = min len' w)
    (hoff : min off w = min off' w) : setW f v len off = setW f v len' off' := by
  rw [setW, setW, windowW, windowW, maskW_congr hlen, shlW_congr _ hoff, shlW_congr _ hoff]

theorem set0W_congr {len len' : Nat} (f v : Word w) (hlen : min len w = min len' w) :
    set0W f v len = set0W f v len' := by
  rw [set0W, set0W, maskW_congr hlen]

theorem swapW_congr {i i' j j' n n' : Nat} (v : Word w) (hi : min i w = min i' w) (hj : min j w = min j' w)
    (hn : min n w = min n' w) : swapW v i j n = swapW v i' j' n' := by
  rw [swapW, swapW, swapDiff, swapDiff, shrW_congr v hi, shrW_congr v hj, maskW_congr hn, shlW_congr _ hi,
    shlW_congr _ hj]

theorem swap1W_congr {i i' j j' : Nat} (v : Word w) (hi : min i w = min i' w) (hj : min j w = min j' w) :
    swap1W v i j = swap1W v i' j' := by
  rw [swap1W, swap1W, swap1Diff, swap1Diff, shrW_congr v hi, shrW_congr v hj, shlW_congr _ hi, shlW_congr _ hj]

/-! ## The short forms -/

theorem shrW_zero (v : Word w) : shrW v 0 = v := by
  apply BitVec.eq_of_toNat_eq
  simp

theorem shlW_zero (v : Word w) : shlW v 0 = v := by
  apply BitVec.eq_of_toNat_eq
  simp

/-- `Get(field, length)` is `Get(field, length, 0)` (41_extract.md R69). -/
theorem get0W_eq_getW (f : Word w) (len : Nat) : get0W f len = getW f len 0 := by
  rw [get0W, getW, shrW_zero]

/-- `Set(field, value, length)` is `Set(field, value, length, 0)` (42_insert.md R76). -/
theorem set0W_eq_setW (f v : Word w) (len : Nat) : set0W f v len = setW f v len 0 := by
  rw [set0W, setW, windowW, shlW_zero, shlW_zero]

end

/-! ## Operations -/

/-- The same result Word is the same transaction, whichever operation gives it (10_state.md R28). -/
theorem next_driveWord_congr {w : Nat} {s : State} {i i' : Instr} {v v' : Word w} (h : v = v') :
    (.next (s.driveWord i (zext64 v)) : Host.Outcome State Fault Refusal) = .next (s.driveWord i' (zext64 v')) := by
  subst h; rfl

/-- R48: an operation may have each parameter replaced by one that is the same up to the width. -/
theorem exec_mapParams_of_min_eq {f : Nat → Nat} (i : Instr) (s : State)
    (hf : ∀ p, min (f p) i.width.bits = min p i.width.bits) : exec (i.mapParams f) s = exec i s := by
  cases i with
  | mask w len => exact next_driveWord_congr (maskW_congr (hf len))
  | get w len off => exact next_driveWord_congr (getW_congr _ (hf len) (hf off))
  | set w len off => exact next_driveWord_congr (setW_congr _ _ (hf len) (hf off))
  | swap w x y n => exact next_driveWord_congr (swapW_congr _ (hf x) (hf y) (hf n))
  | grid8 => rfl
  | grid16 => rfl
  | get0 w len => exact next_driveWord_congr (get0W_congr _ (hf len))
  | set0 w len => exact next_driveWord_congr (set0W_congr _ _ (hf len))
  | swap1 w x y => exact next_driveWord_congr (swap1W_congr _ (hf x) (hf y))

/-- Settles O16: `min(p, W)` is `p` up to the width. -/
theorem parametersMatterUpToTheWidth : Obligations.ParametersMatterUpToTheWidth := by
  unfold Obligations.ParametersMatterUpToTheWidth
  intro i s
  exact exec_mapParams_of_min_eq i s fun p => by rw [Nat.min_assoc, Nat.min_self]

/-- A short form is the same transaction as its expansion (30_encoding.md R57). -/
theorem exec_expand (i : Instr) (s : State) : exec i.expand s = exec i s := by
  cases i with
  | get0 w len => exact next_driveWord_congr (get0W_eq_getW _ len).symm
  | set0 w len => exact next_driveWord_congr (set0W_eq_setW _ _ len).symm
  | swap1 w x y => exact next_driveWord_congr (swap1W_eq (bits_pos w) _ x y).symm
  | _ => rfl

/-- The clamp to 8 bits is above every width. -/
theorem min_presented (p : Nat) (w : Width) : min (presented p) w.bits = min p w.bits := by
  have := bits_le w
  simp only [presented, Config.maxParam]
  omega

/-- With the word of an operation on `CMD`, a step is the operation itself. -/
theorem step_eq_exec_of_cmd_eq_encode {s : State} {i : Instr} (h : s.cmd = encode i) : step s = exec i s := by
  have hdecode : decode s.cmd = .op (i.expand.mapParams presented) := by rw [h, decode_encode]
  calc step s = exec (i.expand.mapParams presented) s := step_eq_exec_of_decode_op hdecode
    _ = exec i.expand s := exec_mapParams_of_min_eq _ s fun p => min_presented p _
    _ = exec i s := exec_expand i s

/-- Settles O8: `withCommand` puts the operation's word on `CMD`. -/
theorem encodedCommandRunsOperation : Obligations.EncodedCommandRunsOperation := by
  unfold Obligations.EncodedCommandRunsOperation
  intro i s
  exact step_eq_exec_of_cmd_eq_encode rfl

end Sys2Proof.Machine
end

section
/-! Proofs about the caller: a call returns the value of the rules' functions on natural numbers (30_encoding.md R58),
and what the lines of a listing do (R59). -/

namespace Sys2Proof.Machine

/-! ## The function units as numbers -/

section
variable {w : Nat}

theorem toNat_maskW_eq_refMask (len : Nat) : (maskW w len).toNat = refMask w len := toNat_maskW len

theorem toNat_getW (f : Word w) (len off : Nat) : (getW f len off).toNat = refGet w f.toNat len off := by
  simp only [getW, BitVec.toNat_and, toNat_shrW, toNat_maskW_eq_refMask, refGet, refShr]

theorem toNat_setW (f v : Word w) (len off : Nat) :
    (setW f v len off).toNat = refSet w f.toNat v.toNat len off := by
  simp only [setW, windowW, BitVec.toNat_or, BitVec.toNat_and, toNat_notW, toNat_shlW, toNat_maskW_eq_refMask, refSet,
    refNot, refShl, Nat.mod_mod]

theorem toNat_swapW (v : Word w) (i j n : Nat) : (swapW v i j n).toNat = refSwap w v.toNat i j n := by
  simp only [swapW, swapDiff, BitVec.toNat_xor, BitVec.toNat_or, BitVec.toNat_and, toNat_shlW, toNat_shrW,
    toNat_maskW_eq_refMask, refSwap, refShl, refShr]

end

/-- What a caller reads in `Y[W-1:0]` is the Word that was driven. -/
theorem zext64_truncW_zext64 (w : Width) (v : Word w.bits) :
    zext64 (truncW w.bits (zext64 v).toNat) = BitVec.ofNat 64 v.toNat := by
  rw [zext64, toNat_truncW, toNat_zext64, Nat.mod_eq_of_lt v.isLt]

/-! ## Grids through the port -/

/-- Four bits of a port spell the sub-vector whose number they are. -/
theorem subVectorAt_eq_of_nibble {g : BitVec 16} {base : Nat} {u : SubVector}
    (h : g.toNat / 2 ^ base % 2 ^ 4 = subVectorValue u) : subVectorAt g base = u := by
  have bit : ∀ k, k < 4 → bitIsSet g (base + k) = (subVectorValue u).testBit k := by
    intro k hk
    rw [bitIsSet_eq (by decide), ← h, Nat.testBit_mod_two_pow, Nat.testBit_div_two_pow, Nat.add_comm]
    simp [hk, BitVec.getLsbD]
  have slots : ∀ b0 b1 b2 b3 : Bool, (⟨(subVectorValue ⟨b0, b1, b2, b3⟩).testBit 0,
      (subVectorValue ⟨b0, b1, b2, b3⟩).testBit 1, (subVectorValue ⟨b0, b1, b2, b3⟩).testBit 2,
      (subVectorValue ⟨b0, b1, b2, b3⟩).testBit 3⟩ : SubVector) = ⟨b0, b1, b2, b3⟩ := by decide
  obtain ⟨b0, b1, b2, b3⟩ := u
  rw [← slots b0 b1 b2 b3, ← bit 0 (by decide), ← bit 1 (by decide), ← bit 2 (by decide), ← bit 3 (by decide)]
  rfl

theorem grid8OfPort_portOfGrid8 (x : Grid8) : grid8OfPort (portOfGrid8 x) = x := by
  have h0 := subVectorValue_lt x.v0
  have h1 := subVectorValue_lt x.v1
  have hport : (portOfGrid8 x).toNat = subVectorValue x.v0 + 16 * subVectorValue x.v1 := by
    rw [portOfGrid8, BitVec.toNat_ofNat]
    omega
  rw [grid8OfPort, subVectorAt_eq_of_nibble (u := x.v0) (by rw [hport]; omega),
    subVectorAt_eq_of_nibble (u := x.v1) (by rw [hport]; omega)]

theorem grid16OfPort_portOfGrid16 (x : Grid16) : grid16OfPort (portOfGrid16 x) = x := by
  have h0 := subVectorValue_lt x.v0
  have h1 := subVectorValue_lt x.v1
  have h2 := subVectorValue_lt x.v2
  have h3 := subVectorValue_lt x.v3
  have hport : (portOfGrid16 x).toNat = subVectorValue x.v0 + 16 * subVectorValue x.v1 + 256 * subVectorValue x.v2
      + 4096 * subVectorValue x.v3 := by
    rw [portOfGrid16, BitVec.toNat_ofNat]
    omega
  rw [grid16OfPort, subVectorAt_eq_of_nibble (u := x.v0) (by rw [hport]; omega),
    subVectorAt_eq_of_nibble (u := x.v1) (by rw [hport]; omega),
    subVectorAt_eq_of_nibble (u := x.v2) (by rw [hport]; omega),
    subVectorAt_eq_of_nibble (u := x.v3) (by rw [hport]; omega)]

/-- A sub-vector of a Word whose bits from `base` are those of the value from `lo` (44_decompose.md R98). -/
theorem subVectorAt_eq_refSub {w base lo : Nat} {v : Word w} {a : BitVec 64} (hw : 0 < w)
    (h : ∀ k, k < 4 → v.getLsbD (base + k) = a.getLsbD (lo + k)) : subVectorAt v base = refSub a lo := by
  have h0 := h 0 (by decide)
  have h1 := h 1 (by decide)
  have h2 := h 2 (by decide)
  have h3 := h 3 (by decide)
  simp only [Nat.add_zero] at h0
  simp only [subVectorAt, refSub, bitIsSet_eq hw, h0, h1, h2, h3]

theorem grid8Of_wordA (s : State) : grid8Of (s.wordA 8) = ⟨refSub s.a 0, refSub s.a 4⟩ := by
  have bits : ∀ k, k < 8 → (s.wordA 8).getLsbD k = s.a.getLsbD k := fun k hk => by
    rw [getLsbD_wordA, decide_eq_true hk, Bool.true_and]
  rw [grid8Of, subVectorAt_eq_refSub (by decide) fun k hk => bits (0 + k) (by omega),
    subVectorAt_eq_refSub (by decide) fun k hk => bits (4 + k) (by omega)]

theorem getLsbD_lowByte (h : Word 16) {k : Nat} (hk : k < 8) : (lowByte h).getLsbD k = h.getLsbD k := by
  have ones : Nat.testBit 255 k = true := by
    rw [show (255 : Nat) = 2 ^ 8 - 1 from rfl, Nat.testBit_two_pow_sub_one, decide_eq_true hk]
  rw [lowByte, getLsbD_truncW, BitVec.toNat_and, Nat.testBit_and]
  simp [hk, ones, BitVec.getLsbD]

theorem getLsbD_highByte (h : Word 16) {k : Nat} (hk : k < 8) : (highByte h).getLsbD k = h.getLsbD (8 + k) := by
  rw [highByte, getLsbD_truncW, decide_eq_true hk, Bool.true_and]
  exact getLsbD_shrW h 8 k

theorem grid16Of_wordA (s : State) :
    grid16Of (s.wordA 16) = ⟨refSub s.a 0, refSub s.a 4, refSub s.a 8, refSub s.a 12⟩ := by
  have low : ∀ k, k < 8 → (lowByte (s.wordA 16)).getLsbD k = s.a.getLsbD k := fun k hk => by
    rw [getLsbD_lowByte _ hk, getLsbD_wordA, decide_eq_true (by omega), Bool.true_and]
  have high : ∀ k, k < 8 → (highByte (s.wordA 16)).getLsbD k = s.a.getLsbD (8 + k) := fun k hk => by
    rw [getLsbD_highByte _ hk, getLsbD_wordA, decide_eq_true (by omega), Bool.true_and]
  simp only [grid16Of, grid8Of]
  rw [subVectorAt_eq_refSub (lo := 0) (by decide) fun k hk => low (0 + k) (by omega),
    subVectorAt_eq_refSub (lo := 4) (by decide) fun k hk => low (4 + k) (by omega),
    subVectorAt_eq_refSub (lo := 8) (by decide) fun k hk => (high (0 + k) (by omega)).trans (by rw [Nat.zero_add]),
    subVectorAt_eq_refSub (lo := 12) (by decide) fun k hk => (high (4 + k) (by omega)).trans (by rw [← Nat.add_assoc])]

/-! ## A call -/

/-- The caller reads the Word that was driven back as a number (30_encoding.md R58). -/
theorem word_of_driveWord {s : State} {i : Instr} {w : Width} {v : Word w.bits} {n : Nat} (h : v.toNat = n) :
    Value.word (zext64 (truncW w.bits (s.driveWord i (zext64 v)).y.toNat)) = .word (BitVec.ofNat 64 n) := by
  rw [driveWord_y, zext64_truncW_zext64, h]

/-- A short form's reference value is its expansion's (30_encoding.md R57). -/
theorem refValue_expand (i : Instr) (a b : BitVec 64) : refValue i.expand a b = refValue i a b := by
  cases i <;> rfl

theorem resultOf_expand (i : Instr) (t : State) : resultOf i.expand t = resultOf i t := by
  cases i <;> rfl

/-- The caller reads the reference value on the ports an operation has settled (30_encoding.md R58). -/
theorem resultOf_of_exec {i : Instr} {s t : State} (h : exec i s = .next t) : resultOf i t = refValue i s.a s.b := by
  rw [← exec_expand] at h
  rw [← resultOf_expand, ← refValue_expand]
  cases i with
  | mask w len => cases h; exact word_of_driveWord (toNat_maskW_eq_refMask len)
  | get w len off | get0 w len =>
    cases h; exact word_of_driveWord (by rw [toNat_getW, toNat_wordA])
  | set w len off | set0 w len =>
    cases h; exact word_of_driveWord (by rw [toNat_setW, toNat_wordA, toNat_wordB])
  | swap w x y n | swap1 w x y =>
    cases h; exact word_of_driveWord (by rw [toNat_swapW, toNat_wordA])
  | grid8 => cases h; exact congrArg Value.grid8 ((grid8OfPort_portOfGrid8 _).trans (grid8Of_wordA s))
  | grid16 => cases h; exact congrArg Value.grid16 ((grid16OfPort_portOfGrid16 _).trans (grid16Of_wordA s))

/-- A call presents the operation's word, so its transaction is the operation, and asserts no `ILL`. -/
theorem call_eq_next (i : Instr) (a b : BitVec 64) (s : State) : ∃ t, call i a b s = .next (t, refValue i a b) := by
  obtain ⟨t, ht, hill⟩ := exec_answers_next_without_ill i (s.present ⟨encode i, a, b⟩)
  have htransact : transact ⟨encode i, a, b⟩ s = .next t := (step_eq_exec_of_cmd_eq_encode rfl).trans ht
  refine ⟨t, ?_⟩
  rw [call, checkedTransact_of_not_ill htransact hill, andThen_next, resultOf_of_exec ht, present_a, present_b]

/-- Settles O56: the operation runs on the arguments, and its result is read back. -/
theorem callReturnsReferenceValue : Obligations.CallReturnsReferenceValue := by
  unfold Obligations.CallReturnsReferenceValue
  exact call_eq_next

/-! ## A line of a listing -/

theorem runLine_of_wellFormed {l : Line} (c : ListingState) (hl : l.wellFormed = true) :
    runLine l c = andThen (portValue c.env c.bfu.a l.opA) fun a =>
      andThen (portValue c.env c.bfu.b l.opB) fun b =>
        andThen (call l.instr a b c.bfu) fun r => .next ⟨bindName c.env l.dest r.2, r.1⟩ := by
  rw [runLine, if_pos hl]

/-- A line whose operands have values binds its name to the reference value (30_encoding.md R59). -/
theorem runLine_eq_next {l : Line} {c : ListingState} {a b : BitVec 64} (hl : l.wellFormed = true)
    (ha : portValue c.env c.bfu.a l.opA = .next a) (hb : portValue c.env c.bfu.b l.opB = .next b) :
    ∃ t, runLine l c = .next ⟨bindName c.env l.dest (refValue l.instr a b), t⟩ := by
  obtain ⟨t, ht⟩ := call_eq_next l.instr a b c.bfu
  refine ⟨t, ?_⟩
  rw [runLine_of_wellFormed c hl, ha, andThen_next, hb, andThen_next, ht, andThen_next]

/-- Settles O57: the line's one binding, read back. -/
theorem listingLineBindsItsResult : Obligations.ListingLineBindsItsResult := by
  unfold Obligations.ListingLineBindsItsResult
  intro l c a b hl ha hb
  obtain ⟨t, ht⟩ := runLine_eq_next hl ha hb
  exact ⟨_, ht, lookupName_bindName_self _ _ _, fun x hx => lookupName_bindName_other _ _ hx⟩

theorem portValue_of_unbound {env : Env} {x : Nat} (held : BitVec 64) (h : lookupName env x = none) :
    portValue env held (some (.name x)) = .refused (.unboundName x) := by
  rw [portValue, operandValue, h]

/-- Settles O58: the first port without a value stops the line. -/
theorem unboundNameIsRefused : Obligations.UnboundNameIsRefused := by
  unfold Obligations.UnboundNameIsRefused
  intro l c x hl hx
  rw [runLine_of_wellFormed c hl]
  constructor
  · intro hA
    rw [hA, portValue_of_unbound _ hx, andThen_refused]
  · intro a ha hB
    rw [ha, andThen_next, hB, portValue_of_unbound _ hx, andThen_refused]

/-! ## No listing faults -/

/-- Looking up an operand is no transaction: it has a value, or the line is refused. -/
theorem portValue_ne_fault (env : Env) (held : BitVec 64) (o : Option Operand) (e : Fault) :
    portValue env held o ≠ .fault e := by
  rcases o with - | v | x
  · simp [portValue]
  · simp [portValue, operandValue]
  · simp only [portValue, operandValue]
    cases lookupName env x with
    | none => simp
    | some v => cases v <;> simp

theorem call_ne_fault (i : Instr) (a b : BitVec 64) (s : State) (e : Fault) : call i a b s ≠ .fault e := by
  obtain ⟨t, ht⟩ := call_eq_next i a b s
  simp [ht]

theorem runLine_ne_fault (l : Line) (c : ListingState) (e : Fault) : runLine l c ≠ .fault e := by
  intro h
  by_cases hl : l.wellFormed = true
  · rw [runLine_of_wellFormed c hl] at h
    obtain hA | ⟨a, -, h⟩ := andThen_eq_fault h
    · exact portValue_ne_fault _ _ _ _ hA
    obtain hB | ⟨b, -, h⟩ := andThen_eq_fault h
    · exact portValue_ne_fault _ _ _ _ hB
    obtain hcall | ⟨r, -, h⟩ := andThen_eq_fault h
    · exact call_ne_fault _ _ _ _ _ hcall
    · cases h
  · rw [runLine, if_neg hl] at h
    cases h

/-- Settles O59, by induction on the lines: none of them faults. -/
theorem listingsNeverFault : Obligations.ListingsNeverFault := by
  unfold Obligations.ListingsNeverFault
  intro ls
  induction ls with
  | nil => intro c e h; cases h
  | cons l rest ih =>
    intro c e h
    obtain hline | ⟨c', -, hrest⟩ := andThen_eq_fault h
    · exact runLine_ne_fault l c e hline
    · exact ih c' e hrest

end Sys2Proof.Machine
end

section
/-! Proofs about one mask: its value and bits (40_mask.md R61, R62), how many of them are set (R63), and what happens
at and beyond the width (R65). -/

namespace Sys2Proof.Machine

/-- What MASK drives, as a number (40_mask.md R61). -/
theorem zext64_maskW_eq_refMask (w : Width) (len : Nat) :
    zext64 (maskW w.bits len) = BitVec.ofNat 64 (refMask w.bits len) := by
  rw [zext64, toNat_maskW_eq_refMask]

theorem toNat_zext64_maskW (w : Width) (len : Nat) : (zext64 (maskW w.bits len)).toNat = refMask w.bits len := by
  rw [toNat_zext64, toNat_maskW_eq_refMask]

theorem getLsbD_zext64_maskW (w : Width) (len k : Nat) :
    (zext64 (maskW w.bits len)).getLsbD k = (decide (k < len) && decide (k < w.bits)) := by
  rw [getLsbD_zext64, getLsbD_maskW, Bool.and_comm]

theorem refMask_zero {w : Nat} (hw : 0 < w) : refMask w 0 = 0 := by
  rw [refMask, if_neg (Nat.not_le.2 hw), Nat.pow_zero, Nat.sub_self]

theorem refMask_of_le {w len : Nat} (h : w ≤ len) : refMask w len = 2 ^ w - 1 := if_pos h

/-- The command word of MASK for a length its field holds (40_mask.md R62). -/
theorem toNat_encode_mask (w : Width) {len : Nat} (h : len ≤ 255) :
    (encode (.mask w len)).toNat = 0 + 8 * w.wsel + 256 * len := by
  have hlen : len < 256 := Nat.lt_succ_of_le h
  rw [encode, presented_of_lt hlen, toNat_enc w (by decide) hlen (by decide) (by decide)]
  simp only [Nat.mul_zero, Nat.add_zero]

/-- Settles O17: the arm of MASK reads no data port, and its parameter is presented unchanged. -/
theorem maskDrivesMask : Obligations.MaskDrivesMask := by
  unfold Obligations.MaskDrivesMask
  intro w len s
  rw [← zext64_maskW_eq_refMask]
  exact ⟨rfl, toNat_encode_mask w⟩

/-- Settles O18: formula and bits of the one Word that MASK drives. -/
theorem maskBits : Obligations.MaskBits := by
  unfold Obligations.MaskBits
  intro w len s
  exact drivesWord_mask ⟨toNat_zext64_maskW w len, getLsbD_zext64_maskW w len⟩

/-- The positions of the 1 bits on the port (40_mask.md R63); none is cut off, as no width is above 64. -/
theorem filter_getLsbD_zext64_maskW (w : Width) (len : Nat) :
    ((Finset.range 64).filter fun k => (zext64 (maskW w.bits len)).getLsbD k = true) =
      Finset.range (min len w.bits) := by
  have hw := bits_le w
  ext k
  simp only [Finset.mem_filter, Finset.mem_range, getLsbD_zext64_maskW, Bool.and_eq_true, decide_eq_true_eq]
  omega

/-- Settles O19: the set of 1 bits, and the two end points of the length. -/
theorem maskPopulation : Obligations.MaskPopulation := by
  unfold Obligations.MaskPopulation
  intro w len s
  refine drivesWord_mask ⟨filter_getLsbD_zext64_maskW w len, ?_, ?_⟩
  · rintro rfl
    rw [toNat_zext64_maskW, refMask_zero (bits_pos w)]
  · rintro rfl
    rw [toNat_zext64_maskW, refMask_of_le le_rfl]

/-- A mask narrowed is the mask of the narrower width (40_mask.md R65). -/
theorem truncW_maskW {v w : Nat} (h : v ≤ w) (len : Nat) : truncW v (maskW w len).toNat = maskW v len := by
  apply BitVec.eq_of_getLsbD_eq
  intro k hk
  have hkw : k < w := Nat.lt_of_lt_of_le hk h
  rw [getLsbD_truncW, BitVec.testBit_toNat, getLsbD_maskW, getLsbD_maskW, decide_eq_true hkw, Bool.true_and]

/-- Settles O21: `min(len, W)` is `len` up to the width, a length beyond the width takes the first branch of R61, and
narrowing a 64-bit mask keeps its low bits. -/
theorem maskSaturates : Obligations.MaskSaturates := by
  unfold Obligations.MaskSaturates
  intro w len s
  refine ⟨?clamp, fun hlen => drivesWord_mask ?saturated, drivesWord_mask (drivesWord_mask ?narrowed)⟩
  case clamp => exact (parametersMatterUpToTheWidth (.mask w len) s).symm
  case saturated => rw [toNat_zext64_maskW, refMask_of_le hlen]
  case narrowed => rw [toNat_zext64, toNat_zext64, ← toNat_truncW, truncW_maskW (w := Width.w64.bits) (bits_le w)]

end Sys2Proof.Machine
end

section
/-! Proofs about the field extractor: the Word GET drives, as a number and bit by bit (41_extract.md R67, R68), its
short form (R69), windows at or past the top of the Word (R70, R71), the end points of the length (R72), and what GET
reads (R73). -/

namespace Sys2Proof.Machine

/-- GET drives `get_W` of the operand Word, whatever is on `B` (41_extract.md R68). -/
theorem drivesWord_get {w : Width} {len off : Nat} {s : State} {P : BitVec 64 → Prop}
    (h : P (zext64 (getW (s.wordA w.bits) len off))) : DrivesWord (.get w len off) s P :=
  ⟨_, rfl, h⟩

/-! ## The driven Word as a number and bit by bit -/

/-- What GET drives, as a number (41_extract.md R67). -/
theorem toNat_zext64_getW_wordA (w : Width) (len off : Nat) (s : State) :
    (zext64 (getW (s.wordA w.bits) len off)).toNat = refGet w.bits (s.a.toNat % 2 ^ w.bits) len off := by
  rw [toNat_zext64, toNat_getW, toNat_wordA]

theorem zext64_getW_wordA_eq_refGet (w : Width) (len off : Nat) (s : State) :
    zext64 (getW (s.wordA w.bits) len off) =
      BitVec.ofNat 64 (refGet w.bits (s.a.toNat % 2 ^ w.bits) len off) := by
  rw [zext64, toNat_getW, toNat_wordA]

/-- Every bit of `Y` after a GET, in terms of the port `A` (41_extract.md R67). -/
theorem getLsbD_zext64_getW_wordA (w : Width) (len off : Nat) (s : State) (k : Nat) :
    (zext64 (getW (s.wordA w.bits) len off)).getLsbD k =
      (decide (k < len) && decide (off + k < w.bits) && s.a.getLsbD (off + k)) := by
  rw [getLsbD_zext64, getLsbD_getW, getLsbD_wordA, Bool.and_assoc]

/-- Settles O23: formula and bits of the one Word that GET drives. -/
theorem getBits : Obligations.GetBits := by
  unfold Obligations.GetBits
  intro w len off s
  exact drivesWord_get ⟨toNat_zext64_getW_wordA w len off s, getLsbD_zext64_getW_wordA w len off s⟩

/-- The command word of GET for parameters its fields hold (41_extract.md R68). -/
theorem toNat_encode_get (w : Width) {len off : Nat} (hlen : len ≤ 255) (hoff : off ≤ 255) :
    (encode (.get w len off)).toNat = 1 + 8 * w.wsel + 256 * len + 65536 * off := by
  have hlen' : len < 256 := Nat.lt_succ_of_le hlen
  have hoff' : off < 256 := Nat.lt_succ_of_le hoff
  rw [encode, presented_of_lt hlen', presented_of_lt hoff', toNat_enc w (by decide) hlen' hoff' (by decide),
    Nat.mul_zero, Nat.add_zero]

/-- Settles O22: the arm of GET drives `get_W`, and its parameters are presented unchanged. -/
theorem getDrivesField : Obligations.GetDrivesField := by
  unfold Obligations.GetDrivesField
  intro w len off s
  rw [← zext64_getW_wordA_eq_refGet]
  exact ⟨rfl, toNat_encode_get w⟩

/-- The shorter signature's formula on numbers: no shift (41_extract.md R69). -/
theorem zext64_get0W_wordA_eq_refMask (w : Width) (len : Nat) (s : State) :
    zext64 (get0W (s.wordA w.bits) len) = BitVec.ofNat 64 (s.a.toNat % 2 ^ w.bits &&& refMask w.bits len) := by
  rw [zext64, get0W, BitVec.toNat_and, toNat_wordA, toNat_maskW_eq_refMask]

/-- Settles O28: GET0 has the expansion GET at offset 0, and offset 0 is presented as 0. -/
theorem getZeroIsGetAtOffsetZero : Obligations.GetZeroIsGetAtOffsetZero := by
  unfold Obligations.GetZeroIsGetAtOffsetZero
  intro w len s
  rw [← zext64_get0W_wordA_eq_refMask]
  exact ⟨rfl, (exec_expand (.get0 w len) s).symm, rfl⟩

/-! ## Windows at and past the top of the Word -/

section
variable {w : Nat}

theorem getW_eq_zero_of_width_le_off (f : Word w) (len : Nat) {off : Nat} (h : w ≤ off) : getW f len off = 0#w := by
  rw [getW, shrW_eq_zero f h, BitVec.zero_and]

/-- Past the top a position of the window reads as 0 with any length, so the length may stop at the top
(41_extract.md R71). -/
theorem getW_eq_getW_of_window_past_top (f : Word w) {len off : Nat} (h : w ≤ off + len) :
    getW f len off = getW f (w - off) off := by
  apply BitVec.eq_of_getLsbD_eq
  intro k _
  rw [getLsbD_getW, getLsbD_getW]
  by_cases hk : off + k < w
  · rw [decide_eq_true (show k < len by omega), decide_eq_true (show k < w - off by omega)]
  · rw [BitVec.getLsbD_of_ge f (off + k) (Nat.le_of_not_lt hk), Bool.and_false, Bool.and_false]

theorem getW_length_zero (f : Word w) (off : Nat) : getW f 0 off = 0#w := by
  apply BitVec.eq_of_getLsbD_eq
  intro k _
  rw [getLsbD_getW, decide_eq_false (Nat.not_lt_zero k), Bool.false_and, BitVec.getLsbD_zero]

/-- A mask of the whole Word keeps every bit of it (41_extract.md R72). -/
theorem getW_eq_shrW_of_width_le_len (f : Word w) {len : Nat} (off : Nat) (h : w ≤ len) :
    getW f len off = shrW f off := by
  apply BitVec.eq_of_getLsbD_eq
  intro k hk
  rw [getLsbD_getW, getLsbD_shrW, decide_eq_true (Nat.lt_of_lt_of_le hk h), Bool.true_and]

theorem zext64_zero : zext64 0#w = 0#64 := by
  rw [zext64, BitVec.toNat_zero]

end

/-- Settles O24: nothing of the Word is left after the shift. -/
theorem getOffsetBeyondWidthIsZero : Obligations.GetOffsetBeyondWidthIsZero := by
  unfold Obligations.GetOffsetBeyondWidthIsZero
  intro w len off s hoff
  have hzero : zext64 (getW (s.wordA w.bits) len off) = 0#64 := by
    rw [getW_eq_zero_of_width_le_off _ len hoff, zext64_zero]
  rw [← hzero]
  rfl

/-- Settles O25: the Word is that of the GET which stops at the top, and its bits are those of R67. -/
theorem getWindowPastTop : Obligations.GetWindowPastTop := by
  unfold Obligations.GetWindowPastTop
  intro w len off s _ hpast
  refine ⟨next_driveWord_congr (getW_eq_getW_of_window_past_top _ hpast.le), drivesWord_get ⟨?existing, ?above⟩⟩
  case existing =>
    intro k hk
    rw [getLsbD_zext64_getW_wordA, decide_eq_true (show k < len by omega),
      decide_eq_true (show off + k < w.bits by omega), Bool.true_and, Bool.true_and]
  case above =>
    intro k hk
    rw [getLsbD_zext64_getW_wordA, decide_eq_false (show ¬ off + k < w.bits by omega), Bool.and_false, Bool.false_and]

/-- Settles O26: an empty mask keeps nothing, a full one the whole shifted Word. -/
theorem getLengthExtremes : Obligations.GetLengthExtremes := by
  unfold Obligations.GetLengthExtremes
  intro w len off s
  constructor
  · rintro rfl
    apply drivesWord_get
    rw [getW_length_zero, zext64_zero]
  · intro hlen
    have hshift : (zext64 (getW (s.wordA w.bits) len off)).toNat = s.a.toNat % 2 ^ w.bits / 2 ^ off := by
      rw [getW_eq_shrW_of_width_le_len _ off hlen, toNat_zext64, toNat_shrW, toNat_wordA]
    refine drivesWord_get ⟨hshift, ?_⟩
    rintro rfl
    rw [hshift, Nat.pow_zero, Nat.div_one]

/-! ## What GET reads -/

theorem refGet_le_refMask (w f len off : Nat) : refGet w f len off ≤ refMask w len := Nat.and_le_right

/-- A position at or above `min(len, W - min(off, W))` is beyond the mask or past the top (41_extract.md R73). -/
theorem toNat_zext64_getW_wordA_lt (w : Width) (len off : Nat) (s : State) :
    (zext64 (getW (s.wordA w.bits) len off)).toNat < 2 ^ min len (w.bits - min off w.bits) := by
  apply Nat.lt_pow_two_of_testBit
  intro k hk
  rw [BitVec.testBit_toNat, getLsbD_zext64_getW_wordA]
  by_cases hlen : k < len
  · rw [decide_eq_false (show ¬ off + k < w.bits by omega), Bool.and_false, Bool.false_and]
  · rw [decide_eq_false hlen, Bool.false_and, Bool.false_and]

/-- Bit `k` of the result reads bit `off + k` of the field, and only inside the window (41_extract.md R73). -/
theorem zext64_getW_wordA_congr {w : Width} {len off : Nat} {s s' : State}
    (h : ∀ k, off ≤ k → k < off + len → k < w.bits → s.a.getLsbD k = s'.a.getLsbD k) :
    zext64 (getW (s.wordA w.bits) len off) = zext64 (getW (s'.wordA w.bits) len off) := by
  apply BitVec.eq_of_getLsbD_eq
  intro k _
  rw [getLsbD_zext64_getW_wordA, getLsbD_zext64_getW_wordA]
  by_cases hk : k < len ∧ off + k < w.bits
  · rw [h (off + k) (by omega) (by omega) hk.2]
  · rw [← Bool.decide_and, decide_eq_false hk, Bool.false_and, Bool.false_and]

/-- Settles O27: the two bounds of the one Word, and the bits it depends on. -/
theorem getIsBoundedByItsWindow : Obligations.GetIsBoundedByItsWindow := by
  unfold Obligations.GetIsBoundedByItsWindow
  intro w len off s s'
  refine ⟨drivesWord_get ⟨?_, toNat_zext64_getW_wordA_lt w len off s⟩, fun h => ?_⟩
  · rw [toNat_zext64_getW_wordA]
    exact refGet_le_refMask _ _ _ _
  · exact drivesWord_get (drivesWord_get (zext64_getW_wordA_congr h))

end Sys2Proof.Machine
end

section
/-! Proofs about the field inserter: the Word SET drives, as a number and bit by bit (42_insert.md R74, R75), its short
form (R76), which bits of the value reach the result (R77), windows at or past the top of the Word (R78, R79), the end
points of the length (R80), and what a GET reads after a SET (R81 to R84). -/

namespace Sys2Proof.Machine

/-- SET drives `set_W` of the two operand Words (42_insert.md R75). -/
theorem drivesWord_set {w : Width} {len off : Nat} {s : State} {P : BitVec 64 → Prop}
    (h : P (zext64 (setW (s.wordA w.bits) (s.wordB w.bits) len off))) : DrivesWord (.set w len off) s P :=
  ⟨_, rfl, h⟩

/-! ## The driven Word as a number and bit by bit -/

theorem toNat_zext64_setW_words (w : Width) (len off : Nat) (s : State) :
    (zext64 (setW (s.wordA w.bits) (s.wordB w.bits) len off)).toNat =
      refSet w.bits (s.a.toNat % 2 ^ w.bits) (s.b.toNat % 2 ^ w.bits) len off := by
  rw [toNat_zext64, toNat_setW, toNat_wordA, toNat_wordB]

theorem zext64_setW_words_eq_refSet (w : Width) (len off : Nat) (s : State) :
    zext64 (setW (s.wordA w.bits) (s.wordB w.bits) len off) =
      BitVec.ofNat 64 (refSet w.bits (s.a.toNat % 2 ^ w.bits) (s.b.toNat % 2 ^ w.bits) len off) := by
  rw [zext64, toNat_setW, toNat_wordA, toNat_wordB]

/-- A bit of `Y` below the width after a SET, in terms of the ports `A` and `B` (42_insert.md R74). -/
theorem getLsbD_zext64_setW_words (w : Width) (len off : Nat) (s : State) {k : Nat} (hk : k < w.bits) :
    (zext64 (setW (s.wordA w.bits) (s.wordB w.bits) len off)).getLsbD k =
      if off ≤ k ∧ k < off + len then s.b.getLsbD (k - off) else s.a.getLsbD k := by
  have hshift : k - off < w.bits := Nat.lt_of_le_of_lt (Nat.sub_le k off) hk
  rw [getLsbD_zext64, getLsbD_setW _ _ _ _ _ hk, getLsbD_wordA, getLsbD_wordB, decide_eq_true hk,
    decide_eq_true hshift, Bool.true_and, Bool.true_and]

/-- Settles O30: formula and bits of the one Word that SET drives. -/
theorem setBits : Obligations.SetBits := by
  unfold Obligations.SetBits
  intro w len off s
  exact drivesWord_set ⟨toNat_zext64_setW_words w len off s, fun k hk => getLsbD_zext64_setW_words w len off s hk⟩

/-- The command word of parameters that its fields hold, whatever the operation (30_encoding.md R44, R48). -/
theorem toNat_enc_presented (w : Width) {op p q r : Nat} (hop : op < 8) (hp : p ≤ 255) (hq : q ≤ 255) (hr : r ≤ 255) :
    (enc op w (presented p) (presented q) (presented r)).toNat =
      op + 8 * w.wsel + 256 * p + 65536 * q + 16777216 * r := by
  have hp' : p < 256 := Nat.lt_succ_of_le hp
  have hq' : q < 256 := Nat.lt_succ_of_le hq
  have hr' : r < 256 := Nat.lt_succ_of_le hr
  rw [presented_of_lt hp', presented_of_lt hq', presented_of_lt hr', toNat_enc w hop hp' hq' hr']

/-- The command word of SET for parameters its fields hold (42_insert.md R75). -/
theorem toNat_encode_set (w : Width) {len off : Nat} (hlen : len ≤ 255) (hoff : off ≤ 255) :
    (encode (.set w len off)).toNat = 2 + 8 * w.wsel + 256 * len + 65536 * off :=
  toNat_enc_presented w (by decide) hlen hoff (Nat.zero_le 255)

/-- Settles O29: the arm of SET drives `set_W`, and its parameters are presented unchanged. -/
theorem setDrivesWord : Obligations.SetDrivesWord := by
  unfold Obligations.SetDrivesWord
  intro w len off s
  rw [← zext64_setW_words_eq_refSet]
  exact ⟨rfl, toNat_encode_set w⟩

theorem toNat_notW_eq_refNot {w : Nat} (a : Word w) : (notW a).toNat = refNot w a.toNat := by
  rw [toNat_notW, refNot, Nat.mod_eq_of_lt a.isLt]

/-- The shorter signature's formula on numbers: no shift (42_insert.md R76). -/
theorem zext64_set0W_words_eq_refMask (w : Width) (len : Nat) (s : State) :
    zext64 (set0W (s.wordA w.bits) (s.wordB w.bits) len) =
      BitVec.ofNat 64 ((s.a.toNat % 2 ^ w.bits &&& refNot w.bits (refMask w.bits len)) |||
        (s.b.toNat % 2 ^ w.bits &&& refMask w.bits len)) := by
  rw [zext64, set0W, BitVec.toNat_or, BitVec.toNat_and, BitVec.toNat_and, toNat_notW_eq_refNot, toNat_wordA,
    toNat_wordB, toNat_maskW_eq_refMask]

/-- Settles O39: SET0 has the expansion SET at offset 0, and offset 0 is presented as 0. -/
theorem setZeroIsSetAtOffsetZero : Obligations.SetZeroIsSetAtOffsetZero := by
  unfold Obligations.SetZeroIsSetAtOffsetZero
  intro w len s
  rw [← zext64_set0W_words_eq_refMask]
  exact ⟨rfl, (exec_expand (.set0 w len) s).symm, rfl⟩

/-! ## Which bits are kept and which are written -/

section
variable {w : Nat}

/-- A window position below the width reads a bit of the value below `min(len, W)` (42_insert.md R77). -/
theorem setW_congr_value (f : Word w) {v v' : Word w} {len : Nat} (off : Nat)
    (h : ∀ k, k < min len w → v.getLsbD k = v'.getLsbD k) : setW f v len off = setW f v' len off := by
  apply BitVec.eq_of_getLsbD_eq
  intro k hk
  rw [getLsbD_setW _ _ _ _ _ hk, getLsbD_setW _ _ _ _ _ hk]
  by_cases hwin : off ≤ k ∧ k < off + len
  · rw [h (k - off) (by omega)]
  · rw [if_neg hwin, if_neg hwin]

/-- A window without a position below the width writes nothing. -/
theorem setW_eq_field_of_no_position (f v : Word w) {len off : Nat} (h : ∀ k, k < w → ¬ (off ≤ k ∧ k < off + len)) :
    setW f v len off = f := by
  apply BitVec.eq_of_getLsbD_eq
  intro k hk
  rw [getLsbD_setW _ _ _ _ _ hk, if_neg (h k hk)]

theorem setW_eq_field_of_width_le_off (f v : Word w) (len : Nat) {off : Nat} (h : w ≤ off) : setW f v len off = f :=
  setW_eq_field_of_no_position f v fun k hk => by omega

theorem setW_length_zero (f v : Word w) (off : Nat) : setW f v 0 off = f :=
  setW_eq_field_of_no_position f v fun k _ => by omega

/-- The window of the whole Word leaves nothing of the field (42_insert.md R80). -/
theorem setW_offset_zero_of_width_le_len (f v : Word w) {len : Nat} (h : w ≤ len) : setW f v len 0 = v := by
  apply BitVec.eq_of_getLsbD_eq
  intro k hk
  rw [getLsbD_setW _ _ _ _ _ hk, if_pos (by omega), Nat.sub_zero]

/-- The part of a window past the top does not exist, so the length may stop at the top (42_insert.md R79). -/
theorem setW_eq_setW_of_window_past_top (f v : Word w) {len off : Nat} (h : w ≤ off + len) :
    setW f v len off = setW f v (w - off) off := by
  apply BitVec.eq_of_getLsbD_eq
  intro k hk
  have hwindow : (off ≤ k ∧ k < off + len) ↔ (off ≤ k ∧ k < off + (w - off)) := by omega
  rw [getLsbD_setW _ _ _ _ _ hk, getLsbD_setW _ _ _ _ _ hk]
  simp only [hwindow]

/-! ## What a GET reads after a SET -/

/-- A position beyond the length or past the top reads as 0 (41_extract.md R67). -/
theorem getLsbD_getW_of_no_position (f : Word w) {len off k : Nat} (h : ¬ (k < len ∧ off + k < w)) :
    (getW f len off).getLsbD k = false := by
  rw [getLsbD_getW]
  by_cases hlen : k < len
  · rw [BitVec.getLsbD_of_ge f (off + k) (by omega), Bool.and_false]
  · rw [decide_eq_false hlen, Bool.false_and]

/-- Bit `k` of the read-back is bit `k` of the value if the window has a position `off + k` below the width, and 0
otherwise (42_insert.md R84). -/
theorem getW_setW (f v : Word w) (len off : Nat) :
    getW (setW f v len off) len off = v &&& maskW w (min len (w - min off w)) := by
  apply BitVec.eq_of_getLsbD_eq
  intro k hk
  rw [BitVec.getLsbD_and, getLsbD_maskW, decide_eq_true hk, Bool.true_and]
  by_cases hin : k < len ∧ off + k < w
  · have hreach : k < min len (w - min off w) := by omega
    rw [getLsbD_getW, getLsbD_setW _ _ _ _ _ hin.2, if_pos (by omega), Nat.add_sub_cancel_left,
      decide_eq_true hin.1, decide_eq_true hreach, Bool.true_and, Bool.and_true]
  · have hreach : ¬ k < min len (w - min off w) := by omega
    rw [getLsbD_getW_of_no_position _ hin, decide_eq_false hreach, Bool.and_false]

/-- A GET of a window apart from the written one reads no written bit (42_insert.md R82). -/
theorem getW_setW_of_apart (f v : Word w) {len off len' off' : Nat} (h : off' + len' ≤ off ∨ off + len ≤ off') :
    getW (setW f v len off) len' off' = getW f len' off' := by
  apply BitVec.eq_of_getLsbD_eq
  intro k _
  by_cases hin : k < len' ∧ off' + k < w
  · rw [getLsbD_getW, getLsbD_getW, getLsbD_setW _ _ _ _ _ hin.2, if_neg (by omega)]
  · rw [getLsbD_getW_of_no_position _ hin, getLsbD_getW_of_no_position _ hin]

end

/-- The caller carries forward exactly the Word that was driven (10_state.md R29). -/
theorem wordA_carryForward_driveWord (s : State) (i : Instr) {w : Width} (v : Word w.bits) :
    (carryForward (s.driveWord i (zext64 v))).wordA w.bits = v := by
  apply BitVec.eq_of_toNat_eq
  rw [toNat_wordA, carryForward, driveWord_y, toNat_zext64, Nat.mod_eq_of_lt v.isLt]

/-- A GET on the carried result reads the Word that was driven. -/
theorem drivesWord_get_carryForward {s : State} {i : Instr} {w : Width} {v : Word w.bits} {len off : Nat}
    {P : BitVec 64 → Prop} (h : P (zext64 (getW v len off))) :
    DrivesWord (.get w len off) (carryForward (s.driveWord i (zext64 v))) P := by
  apply drivesWord_get
  rwa [wordA_carryForward_driveWord]

/-! ## The corner cases and the laws on the ports -/

/-- Settles O31: the field Words are equal, and the value Words agree below `min(len, W)`. -/
theorem setDiscardsHighValueBits : Obligations.SetDiscardsHighValueBits := by
  unfold Obligations.SetDiscardsHighValueBits
  intro w len off s s' ha hb
  have hfield : s.wordA w.bits = s'.wordA w.bits := wordA_eq_of_mod_eq (by rw [ha])
  have hvalue : ∀ k, k < min len w.bits → (s.wordB w.bits).getLsbD k = (s'.wordB w.bits).getLsbD k := by
    intro k hk
    rw [getLsbD_wordB, getLsbD_wordB, hb k hk]
  apply drivesWord_set
  apply drivesWord_set
  rw [hfield, setW_congr_value _ off hvalue]

/-- Settles O32: the window has no position below the width. -/
theorem setOffsetBeyondWidthKeepsField : Obligations.SetOffsetBeyondWidthKeepsField := by
  unfold Obligations.SetOffsetBeyondWidthKeepsField
  intro w len off s hoff
  apply drivesWord_set
  rw [setW_eq_field_of_width_le_off _ _ len hoff, toNat_zext64, toNat_wordA]

/-- Settles O34: an empty window writes nothing, and a window as long as the Word reaches the top from any offset. -/
theorem setLengthExtremes : Obligations.SetLengthExtremes := by
  unfold Obligations.SetLengthExtremes
  intro w len off s
  refine ⟨?empty, fun hlen => drivesWord_set ⟨?bits, ?whole⟩⟩
  case empty =>
    rintro rfl
    apply drivesWord_set
    rw [setW_length_zero, toNat_zext64, toNat_wordA]
  case bits =>
    intro k hk
    have hreach : k < off + len := by omega
    simp only [getLsbD_zext64_setW_words w len off s hk, hreach, and_true]
  case whole =>
    rintro rfl
    rw [setW_offset_zero_of_width_le_len _ _ hlen, toNat_zext64, toNat_wordB]

/-- Settles O36: the read-back of the Word that was driven. -/
theorem setThenGetInGeneral : Obligations.SetThenGetInGeneral := by
  unfold Obligations.SetThenGetInGeneral
  intro w len off s
  refine ⟨_, rfl, drivesWord_get_carryForward ?_⟩
  rw [getW_setW, toNat_zext64, BitVec.toNat_and, toNat_wordB, toNat_maskW_eq_refMask]

/-- Settles O35: in range, all of the length is below the width. -/
theorem setThenGetRoundTrips : Obligations.SetThenGetRoundTrips := by
  unfold Obligations.SetThenGetRoundTrips
  intro w len off s hrange
  have hlen : min len (w.bits - min off w.bits) = len := by omega
  have hread := setThenGetInGeneral w len off s
  rwa [hlen] at hread

/-- Settles O33: the Word is that of the SET which stops at the top, its bits are those of R74, and the read-back is
that of R84 with `W - off` positions. -/
theorem setWindowPastTop : Obligations.SetWindowPastTop := by
  unfold Obligations.SetWindowPastTop
  intro w len off s hoff hpast
  refine ⟨next_driveWord_congr (setW_eq_setW_of_window_past_top _ _ hpast.le), ?_⟩
  obtain ⟨t, hset, hread⟩ := setThenGetInGeneral w len off s
  cases hset
  refine ⟨_, rfl, ?written, ?kept, ?readBack⟩
  case written =>
    intro k hle hk
    rw [driveWord_y, getLsbD_zext64_setW_words w len off s hk, if_pos (by omega)]
  case kept =>
    intro k hlt
    rw [driveWord_y, getLsbD_zext64_setW_words w len off s (hlt.trans hoff), if_neg (by omega)]
  case readBack =>
    rwa [show min len (w.bits - min off w.bits) = w.bits - off by omega] at hread

/-- Settles O37: the bits of R74 outside the window, one by one and as a GET reads them. -/
theorem setDoesNotInterfere : Obligations.SetDoesNotInterfere := by
  unfold Obligations.SetDoesNotInterfere
  intro w len off s
  refine ⟨_, rfl, ?outside, fun len' off' hapart => drivesWord_get (drivesWord_get_carryForward ?apart)⟩
  case outside =>
    intro k hk hout
    rw [driveWord_y, getLsbD_zext64_setW_words w len off s hk, if_neg (by omega)]
  case apart => rw [getW_setW_of_apart _ _ hapart]

/-- Settles O38: the second SET has the first result as its field, so its bits are those of R74 twice; its read-back is
the round trip. -/
theorem laterSetOverwritesEarlier : Obligations.LaterSetOverwritesEarlier := by
  unfold Obligations.LaterSetOverwritesEarlier
  intro w len1 off1 len2 off2 s v
  refine ⟨_, _, rfl, rfl, rfl, rfl, ?bits, ?readBack⟩
  case bits =>
    intro k hk
    rw [← getLsbD_zext64_setW_words w len1 off1 s hk]
    exact getLsbD_zext64_setW_words w len2 off2 _ hk
  case readBack =>
    intro hrange
    obtain ⟨u, hset, hread⟩ := setThenGetRoundTrips w len2 off2 _ hrange
    cases hset
    exact hread

end Sys2Proof.Machine
end

section
/-! Proofs about the bit-swap network: the Word SWAP drives, as a number (43_swap.md R85, R86), its short form (R87),
its corner cases (R88, R89), what it leaves unchanged and its symmetry (R93, R97), windows that are apart (R90 to R92,
R95) and positions at or beyond the width (R96). -/

namespace Sys2Proof.Machine

/-- SWAP drives `swap_W` of the operand Word, whatever is on `B` (43_swap.md R86). -/
theorem drivesWord_swap {w : Width} {i j n : Nat} {s : State} {P : BitVec 64 → Prop}
    (h : P (zext64 (swapW (s.wordA w.bits) i j n))) : DrivesWord (.swap w i j n) s P :=
  ⟨_, rfl, h⟩

/-- SWAP1 is the same transaction as its expansion (43_swap.md R87). -/
theorem exec_swap1_eq (w : Width) (i j : Nat) (s : State) : exec (.swap1 w i j) s = exec (.swap w i j 1) s :=
  (exec_expand (.swap1 w i j) s).symm

theorem drivesWord_swap1 {w : Width} {i j : Nat} {s : State} {P : BitVec 64 → Prop}
    (h : P (zext64 (swapW (s.wordA w.bits) i j 1))) : DrivesWord (.swap1 w i j) s P := by
  rw [DrivesWord, exec_swap1_eq]
  exact drivesWord_swap h

/-- A SWAP on the carried result takes the Word that was driven. -/
theorem drivesWord_swap_carryForward {s : State} {i' : Instr} {w : Width} {v : Word w.bits} {i j n : Nat}
    {P : BitVec 64 → Prop} (h : P (zext64 (swapW v i j n))) :
    DrivesWord (.swap w i j n) (carryForward (s.driveWord i' (zext64 v))) P := by
  apply drivesWord_swap
  rwa [wordA_carryForward_driveWord]

/-! ## The driven Word as a number -/

/-- What SWAP drives, as a number (43_swap.md R85). -/
theorem toNat_zext64_swapW_wordA (w : Width) (i j n : Nat) (s : State) :
    (zext64 (swapW (s.wordA w.bits) i j n)).toNat = refSwap w.bits (s.a.toNat % 2 ^ w.bits) i j n := by
  rw [toNat_zext64, toNat_swapW, toNat_wordA]

theorem zext64_swapW_wordA_eq_refSwap (w : Width) (i j n : Nat) (s : State) :
    zext64 (swapW (s.wordA w.bits) i j n) =
      BitVec.ofNat 64 (refSwap w.bits (s.a.toNat % 2 ^ w.bits) i j n) := by
  rw [zext64, toNat_swapW, toNat_wordA]

/-- The command word of SWAP for parameters its fields hold (43_swap.md R86). -/
theorem toNat_encode_swap (w : Width) {i j n : Nat} (hi : i ≤ 255) (hj : j ≤ 255) (hn : n ≤ 255) :
    (encode (.swap w i j n)).toNat = 3 + 8 * w.wsel + 256 * i + 65536 * j + 16777216 * n :=
  toNat_enc_presented w (by decide) hi hj hn

/-- Settles O40: the arm of SWAP drives `swap_W`, and its parameters are presented unchanged. -/
theorem swapDrivesWord : Obligations.SwapDrivesWord := by
  unfold Obligations.SwapDrivesWord
  intro w i j n s
  rw [← zext64_swapW_wordA_eq_refSwap]
  exact ⟨rfl, toNat_encode_swap w⟩

/-- Settles O50: the spec's six words, evaluated by the rules' function on numbers; no port but `A` reaches them. -/
theorem swapLawsNeedTheirPremises : Obligations.SwapLawsNeedTheirPremises := by
  unfold Obligations.SwapLawsNeedTheirPremises
  intro s
  refine ⟨drivesWord_swap ?_, drivesWord_swap ?_, drivesWord_swap1 ?_, drivesWord_swap1 ?_, drivesWord_swap ?_,
    drivesWord_swap ?_⟩
  all_goals
    rw [zext64_swapW_wordA_eq_refSwap]
    dsimp only
    decide

/-- The second line of `swap_W`, with the value of the first line given (43_swap.md R85). -/
theorem refSwap_of_diff {W v i j n x : Nat} (hx : (refShr v i ^^^ refShr v j) &&& refMask W n = x) :
    refSwap W v i j n = v ^^^ (refShl W x i ||| refShl W x j) := by
  rw [refSwap, hx]

theorem refMask_one {w : Nat} (hw : 0 < w) : refMask w 1 = 1 := by
  by_cases h : w ≤ 1
  · rw [refMask_of_le h, show w = 1 by omega, Nat.pow_one]
  · rw [refMask, if_neg h, Nat.pow_one]

theorem refShr_lt {v w : Nat} (s : Nat) (h : v < 2 ^ w) : refShr v s < 2 ^ w :=
  Nat.lt_of_le_of_lt (Nat.div_le_self _ _) h

/-- A mask of the whole Word keeps every bit of it (43_swap.md R89). -/
theorem and_refMask_of_le {x w n : Nat} (hx : x < 2 ^ w) (h : w ≤ n) : x &&& refMask w n = x := by
  rw [refMask_of_le h, Nat.and_two_pow_sub_one_of_lt_two_pow hx]

/-! ## Symmetry, equal runs, and the bits outside the windows -/

section
variable {w : Nat}

theorem swapW_comm (v : Word w) (i j n : Nat) : swapW v i j n = swapW v j i n := by
  rw [swapW, swapW, swapDiff, swapDiff, BitVec.xor_comm (shrW v i), BitVec.or_comm]

theorem swapDiff_eq_zero_of_equal_runs {v : Word w} {i j n : Nat}
    (h : ∀ k, k < n → v.getLsbD (i + k) = v.getLsbD (j + k)) : swapDiff v i j n = 0#w := by
  apply BitVec.eq_of_getLsbD_eq
  intro k _
  rw [swapDiff, BitVec.getLsbD_and, BitVec.getLsbD_xor, getLsbD_shrW, getLsbD_shrW, getLsbD_maskW, BitVec.getLsbD_zero]
  by_cases hk : k < n
  · rw [h k hk, Bool.xor_self, Bool.false_and]
  · rw [decide_eq_false hk, Bool.and_false, Bool.and_false]

/-- No pair of bits differs, so none is flipped (43_swap.md R88). -/
theorem swapW_of_equal_runs {v : Word w} {i j n : Nat} (h : ∀ k, k < n → v.getLsbD (i + k) = v.getLsbD (j + k)) :
    swapW v i j n = v := by
  have noShift : ∀ p, shlW 0#w p = 0#w := fun p => by
    apply BitVec.eq_of_toNat_eq
    simp
  rw [swapW, swapDiff_eq_zero_of_equal_runs h, noShift, noShift, BitVec.or_zero, BitVec.xor_zero]

theorem swapW_self (v : Word w) (i n : Nat) : swapW v i i n = v := swapW_of_equal_runs fun _ _ => rfl

theorem swapW_length_zero (v : Word w) (i j : Nat) : swapW v i j 0 = v :=
  swapW_of_equal_runs fun k hk => absurd hk (Nat.not_lt_zero k)

/-- A bit outside both windows is kept; at or above the width there is none on either side (43_swap.md R97). -/
theorem getLsbD_swapW_of_outside (v : Word w) {i j n k : Nat} (hi : k < i ∨ i + n ≤ k) (hj : k < j ∨ j + n ≤ k) :
    (swapW v i j n).getLsbD k = v.getLsbD k := by
  by_cases hk : k < w
  · have hi' : ¬ (i ≤ k ∧ k < i + n) := by omega
    have hj' : ¬ (j ≤ k ∧ k < j + n) := by omega
    rw [getLsbD_swapW _ _ _ _ _ hk, ← Bool.decide_and, ← Bool.decide_and, decide_eq_false hi', decide_eq_false hj',
      Bool.false_and, Bool.false_and, Bool.or_false, Bool.xor_false]
  · rw [BitVec.getLsbD_of_ge _ k (Nat.le_of_not_lt hk), BitVec.getLsbD_of_ge _ k (Nat.le_of_not_lt hk)]

/-! ## A run that starts at or beyond the width -/

/-- The run at `j` is exchanged with zeros that are then dropped (43_swap.md R96). -/
theorem getLsbD_swapW_of_width_le (v : Word w) {i k : Nat} (j n : Nat) (hi : w ≤ i) (hk : k < w) :
    (swapW v i j n).getLsbD k = (v.getLsbD k && !(decide (j ≤ k) && decide (k < j + n))) := by
  have hzero : v.getLsbD (i + (k - j)) = false := BitVec.getLsbD_of_ge v _ (by omega)
  have hwin : ¬ i ≤ k := by omega
  rw [getLsbD_swapW _ _ _ _ _ hk, hzero, decide_eq_false hwin]
  cases v.getLsbD k <;> simp

theorem swapW_of_width_le_both (v : Word w) {i j : Nat} (n : Nat) (hi : w ≤ i) (hj : w ≤ j) : swapW v i j n = v := by
  apply BitVec.eq_of_getLsbD_eq
  intro k hk
  exact getLsbD_swapW_of_outside v (.inl (hk.trans_le hi)) (.inl (hk.trans_le hj))

end

/-! ## Windows apart: the swap as a map of positions -/

/-- The position that trades its bit with position `k`: `i + p` and `j + p` are partners for each `p < n`, and a
position outside both windows is its own. SWAP moves bits along it (`getLsbD_swapW_of_apart`). -/
def swapPos (i j n k : Nat) : Nat :=
  if i ≤ k ∧ k < i + n then j + (k - i) else if j ≤ k ∧ k < j + n then i + (k - j) else k

section
variable {w i j n : Nat}

/-- A position is in the first window, in the second, or outside both. -/
theorem position_cases (i j n k : Nat) :
    (∃ p, p < n ∧ k = i + p) ∨ (∃ p, p < n ∧ k = j + p) ∨ ((k < i ∨ i + n ≤ k) ∧ (k < j ∨ j + n ≤ k)) := by
  by_cases hi : i ≤ k ∧ k < i + n
  · exact .inl ⟨k - i, by omega, by omega⟩
  · by_cases hj : j ≤ k ∧ k < j + n
    · exact .inr (.inl ⟨k - j, by omega, by omega⟩)
    · exact .inr (.inr ⟨by omega, by omega⟩)

theorem swapPos_first {p : Nat} (hp : p < n) : swapPos i j n (i + p) = j + p := by
  rw [swapPos, if_pos (by omega), Nat.add_sub_cancel_left]

theorem swapPos_second {p : Nat} (h : Apart i j n ∨ i = j) (hp : p < n) : swapPos i j n (j + p) = i + p := by
  obtain hapart | rfl := h
  · unfold Apart at hapart
    rw [swapPos, if_neg (by omega), if_pos (by omega), Nat.add_sub_cancel_left]
  · exact swapPos_first hp

theorem swapPos_outside {k : Nat} (hi : k < i ∨ i + n ≤ k) (hj : k < j ∨ j + n ≤ k) : swapPos i j n k = k := by
  rw [swapPos, if_neg (by omega), if_neg (by omega)]

theorem swapPos_swapPos (h : Apart i j n ∨ i = j) (k : Nat) : swapPos i j n (swapPos i j n k) = k := by
  obtain ⟨p, hp, rfl⟩ | ⟨p, hp, rfl⟩ | ⟨hi, hj⟩ := position_cases i j n k
  · rw [swapPos_first hp, swapPos_second h hp]
  · rw [swapPos_second h hp, swapPos_first hp]
  · rw [swapPos_outside hi hj, swapPos_outside hi hj]

theorem swapPos_lt {k : Nat} (hi : i + n ≤ w) (hj : j + n ≤ w) (hk : k < w) : swapPos i j n k < w := by
  unfold swapPos
  split_ifs
  all_goals omega

/-- Every bit below the width comes from the partner position: of the two windows of R85's formula at most one holds
position `k`, and there the flip is the XOR with the partner's bit (43_swap.md R90, R95). -/
theorem getLsbD_swapW_of_apart (v : Word w) {k : Nat} (h : Apart i j n ∨ i = j) (hk : k < w) :
    (swapW v i j n).getLsbD k = v.getLsbD (swapPos i j n k) := by
  have first : ∀ {i j p : Nat}, Apart i j n → p < n → i + p < w →
      (swapW v i j n).getLsbD (i + p) = v.getLsbD (j + p) := by
    intro i j p hapart hp hip
    have hout : ¬ (j ≤ i + p ∧ i + p < j + n) := by unfold Apart at hapart; omega
    rw [getLsbD_swapW _ _ _ _ _ hip, ← Bool.decide_and, ← Bool.decide_and, decide_eq_true (by omega),
      decide_eq_false hout, Nat.add_sub_cancel_left, Bool.true_and, Bool.false_and, Bool.or_false, ← Bool.xor_assoc,
      Bool.xor_self, Bool.false_xor]
  obtain ⟨p, hp, rfl⟩ | ⟨p, hp, rfl⟩ | ⟨hi, hj⟩ := position_cases i j n k
  · rw [swapPos_first hp]
    obtain hapart | rfl := h
    · exact first hapart hp hk
    · rw [swapW_self]
  · rw [swapPos_second h hp]
    obtain hapart | rfl := h
    · rw [swapW_comm]
      exact first hapart.symm hp hk
    · rw [swapW_self]
  · rw [swapPos_outside hi hj, getLsbD_swapW_of_outside v hi hj]

/-- In range, the partner of a position below the width is below the width too, so no bit is lost (43_swap.md R91). -/
theorem swapW_swapW (v : Word w) (hi : i + n ≤ w) (hj : j + n ≤ w) (h : Apart i j n) :
    swapW (swapW v i j n) i j n = v := by
  apply BitVec.eq_of_getLsbD_eq
  intro k hk
  rw [getLsbD_swapW_of_apart _ (.inl h) hk, getLsbD_swapW_of_apart _ (.inl h) (swapPos_lt hi hj hk),
    swapPos_swapPos (.inl h)]

/-! ## One bit at a time -/

theorem apart_or_eq_of_succ (h : Apart i j (n + 1) ∨ i = j) : Apart i j n ∨ i = j := by
  unfold Apart at h ⊢
  omega

/-- Windows of one bit are apart unless they are the same. -/
theorem apart_one_or_eq (i j : Nat) : Apart i j 1 ∨ i = j := by
  unfold Apart
  omega

/-- The last pair of positions is outside the first `n` pairs, so no bit moves twice. -/
theorem swapPos_succ (h : Apart i j (n + 1) ∨ i = j) (k : Nat) :
    swapPos i j n (swapPos (i + n) (j + n) 1 k) = swapPos i j (n + 1) k := by
  have hn := apart_or_eq_of_succ h
  by_cases hki : k = i + n
  · subst hki
    have hsingle : swapPos (i + n) (j + n) 1 (i + n) = j + n := swapPos_first Nat.one_pos
    rw [hsingle, swapPos_first (Nat.lt_succ_self n), swapPos_outside (by unfold Apart at h; omega) (by omega)]
  by_cases hkj : k = j + n
  · subst hkj
    have hsingle : swapPos (i + n) (j + n) 1 (j + n) = i + n := swapPos_second (apart_one_or_eq _ _) Nat.one_pos
    rw [hsingle, swapPos_second h (Nat.lt_succ_self n), swapPos_outside (by omega) (by unfold Apart at h; omega)]
  rw [swapPos_outside (i := i + n) (by omega) (by omega)]
  obtain ⟨p, hp, rfl⟩ | ⟨p, hp, rfl⟩ | ⟨hi, hj⟩ := position_cases i j n k
  · rw [swapPos_first hp, swapPos_first (hp.trans (Nat.lt_succ_self n))]
  · rw [swapPos_second hn hp, swapPos_second h (hp.trans (Nat.lt_succ_self n))]
  · rw [swapPos_outside hi hj, swapPos_outside (by omega) (by omega)]

/-- A run of `n + 1` bits is a run of `n` bits and then its last pair, also where a position of that pair is past the
top (43_swap.md R92). -/
theorem swapW_succ (v : Word w) (h : Apart i j (n + 1) ∨ i = j) :
    swapW v i j (n + 1) = swapW (swapW v i j n) (i + n) (j + n) 1 := by
  have hout : ∀ p, p < 1 → (i + n + p < j ∨ j + n ≤ i + n + p) ∧ (j + n + p < i ∨ i + n ≤ j + n + p) := by
    intro p hp
    unfold Apart at h
    omega
  apply BitVec.eq_of_getLsbD_eq
  intro k hk
  rw [getLsbD_swapW_of_apart _ h hk, ← swapPos_succ h, getLsbD_swapW_of_apart _ (apart_one_or_eq _ _) hk]
  obtain ⟨p, hp, rfl⟩ | ⟨p, hp, rfl⟩ | ⟨hi, hj⟩ := position_cases (i + n) (j + n) 1 k
  · have hj : j + n + p < j ∨ j + n ≤ j + n + p := by omega
    rw [swapPos_first hp, swapPos_outside (hout p hp).2 hj, getLsbD_swapW_of_outside v (hout p hp).2 hj]
  · have hi : i + n + p < i ∨ i + n ≤ i + n + p := by omega
    rw [swapPos_second (apart_one_or_eq _ _) hp, swapPos_outside hi (hout p hp).1,
      getLsbD_swapW_of_outside v hi (hout p hp).1]
  · rw [swapPos_outside hi hj, getLsbD_swapW_of_apart v (apart_or_eq_of_succ h) hk]

end

/-- The sequence of single-bit swaps carries forward the Word of the batch: one transaction per pair, by induction on
their number (43_swap.md R92). -/
theorem swapSequence_eq_next (w : Width) (i j : Nat) (s : State) :
    ∀ n, (Apart i j n ∨ i = j) →
      ∃ t, swapSequence w i j n s = .next t ∧ t.wordA w.bits = swapW (s.wordA w.bits) i j n := by
  intro n
  induction n with
  | zero => exact fun _ => ⟨s, rfl, (swapW_length_zero _ i j).symm⟩
  | succ n ih =>
    intro h
    obtain ⟨t, ht, hword⟩ := ih (apart_or_eq_of_succ h)
    have hlast : exec (.swap1 w (i + n) (j + n)) t =
        .next (t.driveWord (.swap w (i + n) (j + n) 1) (zext64 (swapW (t.wordA w.bits) (i + n) (j + n) 1))) :=
      exec_swap1_eq w (i + n) (j + n) t
    refine ⟨_, by rw [swapSequence, ht, andThen_next, hlast, andThen_next], ?_⟩
    rw [wordA_carryForward_driveWord, hword, swapW_succ _ h]

/-! ## The bits on the ports -/

/-- `bitA` is the bit of the operand Word. -/
theorem bitA_eq_getLsbD_wordA (w : Width) (s : State) (k : Nat) : bitA w s k = (s.wordA w.bits).getLsbD k :=
  (getLsbD_wordA s k).symm

theorem bitA_of_lt {w : Width} {k : Nat} (s : State) (hk : k < w.bits) : bitA w s k = s.a.getLsbD k := by
  rw [bitA, decide_eq_true hk, Bool.true_and]

/-- A bit of `Y` below the width after a SWAP of windows apart (43_swap.md R90, R95). -/
theorem getLsbD_zext64_swapW_wordA (w : Width) {i j n k : Nat} (s : State) (h : Apart i j n ∨ i = j)
    (hk : k < w.bits) :
    (zext64 (swapW (s.wordA w.bits) i j n)).getLsbD k = bitA w s (swapPos i j n k) := by
  rw [getLsbD_zext64, getLsbD_swapW_of_apart _ h hk, bitA_eq_getLsbD_wordA]

/-- A bit of `Y` below the width and outside both windows, overlap or not (43_swap.md R97). -/
theorem getLsbD_zext64_swapW_wordA_of_outside (w : Width) {i j n k : Nat} (s : State) (hk : k < w.bits)
    (hi : k < i ∨ i + n ≤ k) (hj : k < j ∨ j + n ≤ k) :
    (zext64 (swapW (s.wordA w.bits) i j n)).getLsbD k = s.a.getLsbD k := by
  rw [getLsbD_zext64, getLsbD_swapW_of_outside _ hi hj, ← bitA_eq_getLsbD_wordA, bitA_of_lt s hk]

/-- SWAP of a Word that it leaves as it is drives `A mod 2^W`. -/
theorem drivesWord_swap_of_swapW_eq {w : Width} {i j n : Nat} {s : State}
    (h : swapW (s.wordA w.bits) i j n = s.wordA w.bits) :
    DrivesWord (.swap w i j n) s fun y => y.toNat = s.a.toNat % 2 ^ w.bits := by
  apply drivesWord_swap
  rw [h, toNat_zext64, toNat_wordA]

/-! ## The corner cases and the laws on the ports -/

/-- Settles O41: equal positions have equal runs, and equal runs have no pair that differs. -/
theorem swapOfEqualRunsKeepsWord : Obligations.SwapOfEqualRunsKeepsWord := by
  unfold Obligations.SwapOfEqualRunsKeepsWord
  intro w i j n s h
  apply drivesWord_swap_of_swapW_eq
  obtain rfl | hruns := h
  · exact swapW_self _ i n
  · simp only [bitA_eq_getLsbD_wordA] at hruns
    exact swapW_of_equal_runs hruns

/-- Settles O42: an empty run has no pair, and a run of the whole width has a mask that keeps every bit. -/
theorem swapLengthExtremes : Obligations.SwapLengthExtremes := by
  unfold Obligations.SwapLengthExtremes
  intro w i j n s
  refine ⟨?empty, fun hn => ⟨drivesWord_swap ?whole, by have := bits_pos w; omega⟩⟩
  case empty =>
    rintro rfl
    exact drivesWord_swap_of_swapW_eq (swapW_length_zero _ i j)
  case whole =>
    rintro x rfl
    have hword : s.a.toNat % 2 ^ w.bits < 2 ^ w.bits := Nat.mod_lt _ (Nat.two_pow_pos _)
    rw [toNat_zext64_swapW_wordA]
    exact refSwap_of_diff (and_refMask_of_le (Nat.xor_lt_two_pow (refShr_lt i hword) (refShr_lt j hword)) hn)

/-- Settles O43: both partners of a pair are below the width, so each bit of the pair is the other's. -/
theorem cleanSwap : Obligations.CleanSwap := by
  unfold Obligations.CleanSwap
  intro w i j n s hi hj h
  refine drivesWord_swap ⟨fun k hk => ?exchanged, fun k hk => getLsbD_zext64_swapW_wordA_of_outside w s hk⟩
  case exchanged =>
    have hik : i + k < w.bits := by omega
    have hjk : j + k < w.bits := by omega
    rw [getLsbD_zext64_swapW_wordA w s (.inl h) hik, getLsbD_zext64_swapW_wordA w s (.inl h) hjk, swapPos_first hk,
      swapPos_second (.inl h) hk]
    exact ⟨bitA_of_lt s hjk, bitA_of_lt s hik⟩

/-- Settles O44: the second SWAP takes the Word the first one drove, and each bit comes back. -/
theorem swapIsAnInvolution : Obligations.SwapIsAnInvolution := by
  unfold Obligations.SwapIsAnInvolution
  intro w i j n s hi hj h
  refine ⟨_, rfl, drivesWord_swap_carryForward ?_⟩
  rw [swapW_swapW _ hi hj h, toNat_zext64, toNat_wordA]

/-- Settles O45: the sequence ends with the Word of the batch on `A`. -/
theorem batchSwapEqualsSequence : Obligations.BatchSwapEqualsSequence := by
  unfold Obligations.BatchSwapEqualsSequence
  intro w i j n s h
  obtain ⟨t, ht, hword⟩ := swapSequence_eq_next w i j s n h
  refine ⟨t, ht, drivesWord_swap ?_⟩
  rw [← hword, toNat_zext64, toNat_wordA]

/-- Settles O46: the formula is symmetric in the two positions. -/
theorem swapIsSymmetric : Obligations.SwapIsSymmetric := by
  unfold Obligations.SwapIsSymmetric
  intro w i j n s
  exact next_driveWord_congr (swapW_comm _ i j n)

/-- Settles O47: both windows of the formula miss the bit. -/
theorem swapKeepsBitsOutside : Obligations.SwapKeepsBitsOutside := by
  unfold Obligations.SwapKeepsBitsOutside
  intro w i j n s
  exact drivesWord_swap fun k hk => getLsbD_zext64_swapW_wordA_of_outside w s hk

/-- Settles O48: each bit comes from its partner, which reads as 0 past the top. -/
theorem swapPastTopExchangesWithZeros : Obligations.SwapPastTopExchangesWithZeros := by
  unfold Obligations.SwapPastTopExchangesWithZeros
  intro w i j n s h
  refine drivesWord_swap fun k hk => ⟨fun hik => ?_, fun hjk => ?_⟩
  · rw [getLsbD_zext64_swapW_wordA w s (.inl h) hik, swapPos_first hk]
  · rw [getLsbD_zext64_swapW_wordA w s (.inl h) hjk, swapPos_second (.inl h) hk]

/-- Settles O49: the run beyond the width reads as zeros; with both beyond, no position is left to write. -/
theorem swapPositionBeyondWidthClears : Obligations.SwapPositionBeyondWidthClears := by
  unfold Obligations.SwapPositionBeyondWidthClears
  intro w i j n s hi
  refine ⟨drivesWord_swap fun k hk => ?cleared, swapIsSymmetric w j i n s, fun hj => ?both⟩
  case cleared =>
    rw [getLsbD_zext64, getLsbD_swapW_of_width_le _ j n hi hk, ← bitA_eq_getLsbD_wordA, bitA_of_lt s hk]
  case both => exact drivesWord_swap_of_swapW_eq (swapW_of_width_le_both _ n hi hj)

/-- Settles O51: the mask of one bit is 1, and windows of one bit are equal or apart. -/
theorem swapOneIsSwapOfLengthOne : Obligations.SwapOneIsSwapOfLengthOne := by
  unfold Obligations.SwapOneIsSwapOfLengthOne
  intro w i j s
  refine ⟨drivesWord_swap1 ?formula, fun hi hj => drivesWord_swap1 ⟨?bitI, ?bitJ, ?others⟩, exec_swap1_eq w i j s, rfl⟩
  case formula =>
    rintro x rfl
    rw [toNat_zext64_swapW_wordA]
    exact refSwap_of_diff (by rw [refMask_one (bits_pos w)])
  case bitI =>
    have hpartner : swapPos i j 1 i = j := swapPos_first Nat.one_pos
    rw [getLsbD_zext64_swapW_wordA w s (apart_one_or_eq i j) hi, hpartner, bitA_of_lt s hj]
  case bitJ =>
    have hpartner : swapPos i j 1 j = i := swapPos_second (apart_one_or_eq i j) Nat.one_pos
    rw [getLsbD_zext64_swapW_wordA w s (apart_one_or_eq i j) hj, hpartner, bitA_of_lt s hi]
  case others =>
    intro k hk hki hkj
    exact getLsbD_zext64_swapW_wordA_of_outside w s hk (by omega) (by omega)

end Sys2Proof.Machine
end

section
/-! Proofs about the bit decomposer: the slots of a grid are the bits of its Word (44_decompose.md R98, R100), the Word
as a number from its sub-vectors (R103), and the grids that GRID8 and GRID16 drive on `G` (R99, R101). -/

namespace Sys2Proof.Machine

/-! ## A sub-vector: its slots and its value -/

section
variable {w : Nat}

theorem slot_subVectorAt (hw : 0 < w) (v : Word w) (base : Nat) (k : Fin 4) :
    (subVectorAt v base).slot k = v.getLsbD (base + k) := by
  match k with
  | 0 | 1 | 2 | 3 => exact bitIsSet_eq hw v _

/-- A sub-vector holds nothing but four bits, whatever the width of the Word they are taken from. -/
theorem subVectorAt_congr {w' base base' : Nat} {v : Word w} {v' : Word w'} (hw : 0 < w) (hw' : 0 < w')
    (h : ∀ k, k < 4 → v.getLsbD (base + k) = v'.getLsbD (base' + k)) : subVectorAt v base = subVectorAt v' base' := by
  simp only [subVectorAt, bitIsSet_eq hw, bitIsSet_eq hw', SubVector.mk.injEq]
  exact ⟨h 0 (by decide), h 1 (by decide), h 2 (by decide), h 3 (by decide)⟩

/-- The value of a sub-vector is the four-bit digit of the Word at its base. -/
theorem subVectorValue_subVectorAt (hw : 0 < w) (v : Word w) (base : Nat) :
    subVectorValue (subVectorAt v base) = v.toNat / 2 ^ base % 2 ^ 4 := by
  have bit : ∀ k, (bitIsSet v (base + k)).toNat = v.toNat / 2 ^ base / 2 ^ k % 2 := fun k => by
    rw [bitIsSet_eq hw, BitVec.getLsbD, Nat.toNat_testBit, pow_add, Nat.div_div_eq_div_mul]
  have bit0 := bit 0
  rw [Nat.add_zero] at bit0
  simp only [subVectorValue, subVectorAt, bit0, bit]
  omega

end

theorem ite_eq_mul_toNat (b : Bool) (n : Nat) : (if b = true then n else 0) = n * b.toNat := by
  cases b <;> simp

/-- The slots of a sub-vector that are true, each with the weight of its bit, add up to a multiple of its value
(44_decompose.md R103). -/
theorem sum_slots_eq_mul_subVectorValue (u : SubVector) (v : Nat) :
    (∑ k : Fin 4, if u.slot k = true then 2 ^ (4 * v + k.val) else 0) = 2 ^ (4 * v) * subVectorValue u := by
  simp only [ite_eq_mul_toNat, pow_add, mul_assoc, ← Finset.mul_sum]
  rw [Fin.sum_univ_four, subVectorValue]
  simp [SubVector.slot]

/-! ## The sub-vectors of a grid -/

theorem sub_grid8Of (b : Word 8) (v : Fin 2) : (grid8Of b).sub v = subVectorAt b (4 * v) := by
  match v with
  | 0 | 1 => rfl

theorem lowByte_eq_extractLsb' (h : Word 16) : lowByte h = h.extractLsb' 0 8 := by
  apply BitVec.eq_of_getLsbD_eq
  intro k hk
  rw [getLsbD_lowByte h hk]
  simp [hk]

theorem highByte_eq_extractLsb' (h : Word 16) : highByte h = h.extractLsb' 8 8 := by
  apply BitVec.eq_of_getLsbD_eq
  intro k hk
  rw [getLsbD_highByte h hk]
  simp [hk]

theorem subVectorAt_lowByte (h : Word 16) {base : Nat} (hb : base + 4 ≤ 8) :
    subVectorAt (lowByte h) base = subVectorAt h base :=
  subVectorAt_congr (by decide) (by decide) fun k hk => getLsbD_lowByte h (by omega)

theorem subVectorAt_highByte (h : Word 16) {base : Nat} (hb : base + 4 ≤ 8) :
    subVectorAt (highByte h) base = subVectorAt h (8 + base) :=
  subVectorAt_congr (by decide) (by decide) fun k hk => by rw [getLsbD_highByte h (by omega), Nat.add_assoc]

/-- GRID16 cuts its Word as GRID8 does, byte by byte (44_decompose.md R100). -/
theorem sub_grid16Of (h : Word 16) (v : Fin 4) : (grid16Of h).sub v = subVectorAt h (4 * v) := by
  match v with
  | 0 | 1 => exact subVectorAt_lowByte h (by decide)
  | 2 | 3 => exact subVectorAt_highByte h (by decide)

/-- Settles O54: every sub-vector is cut from the Word itself, and the two bytes are its halves. -/
theorem gridSlotsAreBits : Obligations.GridSlotsAreBits := by
  unfold Obligations.GridSlotsAreBits
  refine ⟨fun b v k => ?byte, fun h v k => ?word, fun h => ?halves⟩
  case byte => rw [sub_grid8Of, slot_subVectorAt (by decide)]
  case word => rw [sub_grid16Of, slot_subVectorAt (by decide)]
  case halves =>
    rw [← lowByte_eq_extractLsb', ← highByte_eq_extractLsb']
    exact ⟨rfl, rfl, rfl, rfl⟩

/-! ## The Word back from its grid -/

theorem subVectorValue_sub_grid8Of (b : Word 8) (v : Fin 2) :
    subVectorValue ((grid8Of b).sub v) = b.toNat / 2 ^ (4 * v.val) % 2 ^ 4 := by
  rw [sub_grid8Of, subVectorValue_subVectorAt (by decide)]

theorem subVectorValue_sub_grid16Of (h : Word 16) (v : Fin 4) :
    subVectorValue ((grid16Of h).sub v) = h.toNat / 2 ^ (4 * v.val) % 2 ^ 4 := by
  rw [sub_grid16Of, subVectorValue_subVectorAt (by decide)]

/-- The low `m` digits of a number to the base 16, by induction on their number. -/
theorem mod_eq_sum_digits (n m : Nat) :
    n % 2 ^ (4 * m) = ∑ v : Fin m, 2 ^ (4 * v.val) * (n / 2 ^ (4 * v.val) % 2 ^ 4) := by
  simp only [pow_mul]
  induction m with
  | zero => rw [pow_zero, Nat.mod_one, Fin.sum_univ_zero]
  | succ m ih =>
    rw [Nat.mod_pow_succ, ih, Fin.sum_univ_castSucc]
    rfl

/-- A byte is the number whose digits to the base 16 are the values of its sub-vectors. -/
theorem toNat_eq_sum_grid8Of (b : Word 8) :
    b.toNat = ∑ v : Fin 2, 2 ^ (4 * v.val) * subVectorValue ((grid8Of b).sub v) := by
  simp only [subVectorValue_sub_grid8Of]
  rw [← mod_eq_sum_digits, Nat.mod_eq_of_lt b.isLt]

theorem toNat_eq_sum_grid16Of (h : Word 16) :
    h.toNat = ∑ v : Fin 4, 2 ^ (4 * v.val) * subVectorValue ((grid16Of h).sub v) := by
  simp only [subVectorValue_sub_grid16Of]
  rw [← mod_eq_sum_digits, Nat.mod_eq_of_lt h.isLt]

theorem grid8Of_injective : Function.Injective grid8Of := fun b b' h => by
  apply BitVec.eq_of_toNat_eq
  rw [toNat_eq_sum_grid8Of, h, ← toNat_eq_sum_grid8Of]

theorem grid16Of_injective : Function.Injective grid16Of := fun h h' hgrid => by
  apply BitVec.eq_of_toNat_eq
  rw [toNat_eq_sum_grid16Of, hgrid, ← toNat_eq_sum_grid16Of]

/-- Settles O55: the sub-vectors are the digits of the word, and the slots are the bits of each digit. -/
theorem gridDeterminesWord : Obligations.GridDeterminesWord := by
  unfold Obligations.GridDeterminesWord
  refine ⟨fun b => ?byte, fun h => ?word, fun b b' h => grid8Of_injective h, fun h h' hgrid => grid16Of_injective hgrid⟩
  case byte =>
    simp only [sum_slots_eq_mul_subVectorValue]
    exact toNat_eq_sum_grid8Of b
  case word =>
    simp only [sum_slots_eq_mul_subVectorValue]
    exact toNat_eq_sum_grid16Of h

/-! ## What GRID8 and GRID16 drive -/

theorem sum_two_digits (d : Fin 2 → Nat) : (∑ v : Fin 2, 2 ^ (4 * v.val) * d v) = d 0 + 16 * d 1 := by
  simp [Fin.sum_univ_two]

theorem sum_four_digits (d : Fin 4 → Nat) :
    (∑ v : Fin 4, 2 ^ (4 * v.val) * d v) = d 0 + 16 * d 1 + 256 * d 2 + 4096 * d 3 := by
  simp [Fin.sum_univ_four]

/-- A grid on the port is a sum of digits too: none of them is cut off (10_state.md R26). -/
theorem toNat_portOfGrid8 (x : Grid8) :
    (portOfGrid8 x).toNat = ∑ v : Fin 2, 2 ^ (4 * v.val) * subVectorValue (x.sub v) := by
  have h0 := subVectorValue_lt x.v0
  have h1 := subVectorValue_lt x.v1
  rw [portOfGrid8, BitVec.toNat_ofNat, sum_two_digits]
  simp only [Grid8.sub]
  omega

theorem toNat_portOfGrid16 (x : Grid16) :
    (portOfGrid16 x).toNat = ∑ v : Fin 4, 2 ^ (4 * v.val) * subVectorValue (x.sub v) := by
  have h0 := subVectorValue_lt x.v0
  have h1 := subVectorValue_lt x.v1
  have h2 := subVectorValue_lt x.v2
  have h3 := subVectorValue_lt x.v3
  rw [portOfGrid16, BitVec.toNat_ofNat, sum_four_digits]
  simp only [Grid16.sub]
  omega

/-- Every bit of `G` after a GRID8, in terms of the port `A` (44_decompose.md R99). -/
theorem getLsbD_portOfGrid8_wordA (s : State) (k : Nat) :
    (portOfGrid8 (grid8Of (s.wordA 8))).getLsbD k = (decide (k < 8) && s.a.getLsbD k) := by
  rw [BitVec.getLsbD, toNat_portOfGrid8, ← toNat_eq_sum_grid8Of, BitVec.testBit_toNat, getLsbD_wordA]

/-- Every bit of `G` after a GRID16, in terms of the port `A` (44_decompose.md R101). -/
theorem getLsbD_portOfGrid16_wordA (s : State) (k : Nat) :
    (portOfGrid16 (grid16Of (s.wordA 16))).getLsbD k = (decide (k < 16) && s.a.getLsbD k) := by
  rw [BitVec.getLsbD, toNat_portOfGrid16, ← toNat_eq_sum_grid16Of, BitVec.testBit_toNat, getLsbD_wordA]

theorem drivesGrid_grid8 {s : State} {P : BitVec 16 → Prop} (h : P (portOfGrid8 (grid8Of (s.wordA 8)))) :
    DrivesGrid .grid8 s P :=
  ⟨_, rfl, h⟩

theorem drivesGrid_grid16 {s : State} {P : BitVec 16 → Prop} (h : P (portOfGrid16 (grid16Of (s.wordA 16)))) :
    DrivesGrid .grid16 s P :=
  ⟨_, rfl, h⟩

/-- Settles O52: the port has the operand byte below bit 8 and nothing above, and reading inverts driving. -/
theorem gridEightDrivesGrid : Obligations.GridEightDrivesGrid := by
  unfold Obligations.GridEightDrivesGrid
  intro s
  refine ⟨drivesGrid_grid8 ⟨fun v k hv hk => ?slot, fun k hk => ?above, grid8OfPort_portOfGrid8 _⟩, rfl⟩
  case slot => rw [getLsbD_portOfGrid8_wordA, decide_eq_true (by omega), Bool.true_and]
  case above => rw [getLsbD_portOfGrid8_wordA, decide_eq_false (by omega), Bool.false_and]

/-- Settles O53: the port has the operand Word, and reading inverts driving. -/
theorem gridSixteenDrivesGrid : Obligations.GridSixteenDrivesGrid := by
  unfold Obligations.GridSixteenDrivesGrid
  intro s
  refine ⟨drivesGrid_grid16 ⟨fun v k hv hk => ?slot, grid16OfPort_portOfGrid16 _⟩, rfl⟩
  case slot => rw [getLsbD_portOfGrid16_wordA, decide_eq_true (by omega), Bool.true_and]

end Sys2Proof.Machine
end

section
/-! Proofs about the exceptions: a step has outputs whatever the command word on `CMD` is (60_exceptions.md R111). -/

namespace Sys2Proof.Machine

/-- Settles O9: an operation and a reserved command both answer next, and neither writes an input port
(`step_answers_next_keeping_inputs`, by `step_cases`). -/
theorem everyTransactionHasOutputs : Obligations.EveryTransactionHasOutputs := by
  unfold Obligations.EveryTransactionHasOutputs
  intro s
  exact step_answers_next_keeping_inputs s

end Sys2Proof.Machine
end

section
/-! Proofs about fixed words: the words of 95_test_vectors.md section 3.1 and their operations. -/

namespace Sys2Proof

/-- The words that decode to an operation are its own word, and only where the fields can spell it and it is no short
form (30_encoding.md R57, R60). -/
theorem decode_eq_op_iff_encode_eq {c : BitVec 32} {i : Instr} :
    decode c = .op i ↔ encode i = c ∧ i.wellFormed = true ∧ i.expand = i := by
  constructor
  · exact fun h => ⟨encode_of_decode h, wellFormed_and_expand_eq_of_decode h⟩
  · rintro ⟨rfl, hwf, hexpand⟩
    rw [decode_encode_of_wellFormed hwf, hexpand]

/-- Settles O2: each word is the encoding of the operation the spec lists for it, and decoding inverts encoding. -/
theorem sampleWordsDecode : Obligations.SampleWordsDecode := by
  unfold Obligations.SampleWordsDecode
  simp only [decode_eq_op_iff_encode_eq]
  refine ⟨?mask, ?get, ?set, ?swap, ?grid8, ?grid16⟩ <;> decide

end Sys2Proof
end

section
/-! Proofs about the ports before the first transaction (70_reset_and_hazards.md R121; log entry 2). -/

namespace Sys2Proof.Machine

/-- The all-zero command word at reset is that of MASK at 8 bits with length 0 (30_encoding.md R56). -/
theorem reset_cmd_eq_encode : State.reset.cmd = encode (.mask .w8 0) := by decide

theorem zext64_maskW_zero (w : Width) : zext64 (maskW w.bits 0) = 0#64 := by
  rw [zext64_maskW_eq_refMask, refMask_zero (bits_pos w)]

/-- An empty mask drives 0 on every output, and those are the outputs at reset. -/
theorem settled_reset : Settled State.reset := by
  calc step State.reset = exec (.mask .w8 0) State.reset := step_eq_exec_of_cmd_eq_encode reset_cmd_eq_encode
    _ = .next (State.reset.driveWord (.mask .w8 0) (zext64 (maskW Width.w8.bits 0))) := rfl
    _ = .next (State.reset.driveWord (.mask .w8 0) 0#64) := by rw [zext64_maskW_zero]
    _ = .next State.reset := rfl

/-- A settled state is its own next state, so the routing every step establishes holds of it. -/
theorem routed_of_settled {s : State} (h : Settled s) : Routed s := everyStepIsRouted s s h

/-- Settles O14: the reset ports are settled, and settled ports are routed. -/
theorem resetIsSettledAndRouted : Obligations.ResetIsSettledAndRouted := by
  unfold Obligations.ResetIsSettledAndRouted
  exact ⟨settled_reset, routed_of_settled settled_reset⟩

end Sys2Proof.Machine
end
